-- ==== Sys2Proof/Word.lean ====
section
/-! DEFINITION. The two word types of the hardware (spec/00_scope.md R7: `XLEN` = 8, `ALEN` = 16). -/

namespace Sys2Proof

/-- A byte: the width of A, X, Y, SP, P and of every data access (R7, `XLEN`). -/
abbrev Byte := BitVec 8

/-- A 16-bit address, also the type of the program counter (R7, `ALEN`). -/
abbrev Addr := BitVec 16

/-- The index of one of the eight graphics registers (20_memory.md R55). -/
abbrev GfxReg := BitVec 3

end Sys2Proof
end

