-- ==== Sys2Proof/Syntax.lean ====
section
/-! DEFINITION. The instruction set as syntax: the 21 mnemonics, the 12 addressing modes and the 49 registered
(opcode, mnemonic, mode) rows of spec/30_encoding.md R92, R96, one constructor of `Instr` each. -/

namespace Sys2Proof

/-- The 21 mnemonics (00_scope.md R1, R19). -/
inductive Mnemonic where
  | adc
  | bit
  | lda
  | ldx
  | sta
  | stx
  | jmp
  | jsr
  | rts
  | brk
  | rti
  | sec
  | clc
  | nop
  | bcs
  | bcc
  | beq
  | bne
  | bvs
  | bvc
  | bpl
  deriving DecidableEq, Repr

/-- The closed set of addressing modes (30_encoding.md R92). -/
inductive Mode where
  | implied
  | immediate
  | zeroPage
  | zeroPageX
  | zeroPageY
  | absolute
  | absoluteX
  | absoluteY
  | indirectX
  | indirectY
  | absoluteIndirect
  | relative
  deriving DecidableEq, Repr

/-- How many operand bytes follow the opcode in each mode (30_encoding.md R92). -/
def Mode.operandBytes : Mode → Nat
  | .implied => 0
  | .immediate | .zeroPage | .zeroPageX | .zeroPageY | .indirectX | .indirectY | .relative => 1
  | .absolute | .absoluteX | .absoluteY | .absoluteIndirect => 2

/-- The length of an instruction of this mode in bytes: formats F1, F2, F3 (30_encoding.md R91, R92). -/
def Mode.length (m : Mode) : Nat := 1 + m.operandBytes

/-- The instructions: one constructor per row of spec/opcode_table.json, with its operand field `d8` or `a16`
(30_encoding.md R91, R96). A name is the mnemonic and a suffix for the mode; JMP has `Abs` and `Ind`. -/
inductive Instr where
  /-- ADC Immediate, opcode 0x69 (41_alu.md R140). -/
  | adcImm (d8 : Byte)
  /-- ADC ZeroPage, opcode 0x65 (41_alu.md R140). -/
  | adcZp (d8 : Byte)
  /-- ADC ZeroPageX, opcode 0x75 (41_alu.md R140). -/
  | adcZpX (d8 : Byte)
  /-- ADC Absolute, opcode 0x6D (41_alu.md R140). -/
  | adcAbs (a16 : Addr)
  /-- ADC AbsoluteX, opcode 0x7D (41_alu.md R140). -/
  | adcAbsX (a16 : Addr)
  /-- ADC AbsoluteY, opcode 0x79 (41_alu.md R140). -/
  | adcAbsY (a16 : Addr)
  /-- ADC IndirectX, opcode 0x61 (41_alu.md R140). -/
  | adcIndX (d8 : Byte)
  /-- ADC IndirectY, opcode 0x71 (41_alu.md R140). -/
  | adcIndY (d8 : Byte)
  /-- BIT ZeroPage, opcode 0x24 (41_alu.md R141). -/
  | bitZp (d8 : Byte)
  /-- BIT Absolute, opcode 0x2C (41_alu.md R141). -/
  | bitAbs (a16 : Addr)
  /-- LDA Immediate, opcode 0xA9 (42_load_store.md R151). -/
  | ldaImm (d8 : Byte)
  /-- LDA ZeroPage, opcode 0xA5 (42_load_store.md R151). -/
  | ldaZp (d8 : Byte)
  /-- LDA ZeroPageX, opcode 0xB5 (42_load_store.md R151). -/
  | ldaZpX (d8 : Byte)
  /-- LDA Absolute, opcode 0xAD (42_load_store.md R151). -/
  | ldaAbs (a16 : Addr)
  /-- LDA AbsoluteX, opcode 0xBD (42_load_store.md R151). -/
  | ldaAbsX (a16 : Addr)
  /-- LDA AbsoluteY, opcode 0xB9 (42_load_store.md R151). -/
  | ldaAbsY (a16 : Addr)
  /-- LDA IndirectX, opcode 0xA1 (42_load_store.md R151). -/
  | ldaIndX (d8 : Byte)
  /-- LDA IndirectY, opcode 0xB1 (42_load_store.md R151). -/
  | ldaIndY (d8 : Byte)
  /-- LDX Immediate, opcode 0xA2 (42_load_store.md R152). -/
  | ldxImm (d8 : Byte)
  /-- LDX ZeroPage, opcode 0xA6 (42_load_store.md R152). -/
  | ldxZp (d8 : Byte)
  /-- LDX ZeroPageY, opcode 0xB6 (42_load_store.md R152). -/
  | ldxZpY (d8 : Byte)
  /-- LDX Absolute, opcode 0xAE (42_load_store.md R152). -/
  | ldxAbs (a16 : Addr)
  /-- LDX AbsoluteY, opcode 0xBE (42_load_store.md R152). -/
  | ldxAbsY (a16 : Addr)
  /-- STA ZeroPage, opcode 0x85 (42_load_store.md R153). -/
  | staZp (d8 : Byte)
  /-- STA ZeroPageX, opcode 0x95 (42_load_store.md R153). -/
  | staZpX (d8 : Byte)
  /-- STA Absolute, opcode 0x8D (42_load_store.md R153). -/
  | staAbs (a16 : Addr)
  /-- STA AbsoluteX, opcode 0x9D (42_load_store.md R153). -/
  | staAbsX (a16 : Addr)
  /-- STA AbsoluteY, opcode 0x99 (42_load_store.md R153). -/
  | staAbsY (a16 : Addr)
  /-- STA IndirectX, opcode 0x81 (42_load_store.md R153). -/
  | staIndX (d8 : Byte)
  /-- STA IndirectY, opcode 0x91 (42_load_store.md R153). -/
  | staIndY (d8 : Byte)
  /-- STX ZeroPage, opcode 0x86 (42_load_store.md R154). -/
  | stxZp (d8 : Byte)
  /-- STX ZeroPageY, opcode 0x96 (42_load_store.md R154). -/
  | stxZpY (d8 : Byte)
  /-- STX Absolute, opcode 0x8E (42_load_store.md R154). -/
  | stxAbs (a16 : Addr)
  /-- JMP Absolute, opcode 0x4C (43_jumps_subroutines.md R160). -/
  | jmpAbs (a16 : Addr)
  /-- JMP AbsoluteIndirect, opcode 0x6C (43_jumps_subroutines.md R160). -/
  | jmpInd (a16 : Addr)
  /-- JSR Absolute, opcode 0x20 (43_jumps_subroutines.md R161). -/
  | jsr (a16 : Addr)
  /-- RTS Implied, opcode 0x60 (43_jumps_subroutines.md R162). -/
  | rts
  /-- BRK Implied, opcode 0x00 (44_break_return.md R170). -/
  | brk
  /-- RTI Implied, opcode 0x40 (44_break_return.md R171). -/
  | rti
  /-- SEC Implied, opcode 0x38 (45_flags_nop.md R180). -/
  | sec
  /-- CLC Implied, opcode 0x18 (45_flags_nop.md R181). -/
  | clc
  /-- NOP Implied, opcode 0xEA (45_flags_nop.md R182). -/
  | nop
  /-- BCS Relative, opcode 0xB0 (46_branches.md R191). -/
  | bcs (d8 : Byte)
  /-- BCC Relative, opcode 0x90 (46_branches.md R192). -/
  | bcc (d8 : Byte)
  /-- BEQ Relative, opcode 0xF0 (46_branches.md R193). -/
  | beq (d8 : Byte)
  /-- BNE Relative, opcode 0xD0 (46_branches.md R194). -/
  | bne (d8 : Byte)
  /-- BVS Relative, opcode 0x70 (46_branches.md R195). -/
  | bvs (d8 : Byte)
  /-- BVC Relative, opcode 0x50 (46_branches.md R196). -/
  | bvc (d8 : Byte)
  /-- BPL Relative, opcode 0x10 (46_branches.md R197). -/
  | bpl (d8 : Byte)
  deriving DecidableEq, Repr

/-- The mnemonic of the row (30_encoding.md R96). -/
def Instr.mnemonic : Instr → Mnemonic
  | .adcImm _ | .adcZp _ | .adcZpX _ | .adcAbs _ | .adcAbsX _ | .adcAbsY _ | .adcIndX _ | .adcIndY _ => .adc
  | .bitZp _ | .bitAbs _ => .bit
  | .ldaImm _ | .ldaZp _ | .ldaZpX _ | .ldaAbs _ | .ldaAbsX _ | .ldaAbsY _ | .ldaIndX _ | .ldaIndY _ => .lda
  | .ldxImm _ | .ldxZp _ | .ldxZpY _ | .ldxAbs _ | .ldxAbsY _ => .ldx
  | .staZp _ | .staZpX _ | .staAbs _ | .staAbsX _ | .staAbsY _ | .staIndX _ | .staIndY _ => .sta
  | .stxZp _ | .stxZpY _ | .stxAbs _ => .stx
  | .jmpAbs _ | .jmpInd _ => .jmp
  | .jsr _ => .jsr
  | .rts => .rts
  | .brk => .brk
  | .rti => .rti
  | .sec => .sec
  | .clc => .clc
  | .nop => .nop
  | .bcs _ => .bcs
  | .bcc _ => .bcc
  | .beq _ => .beq
  | .bne _ => .bne
  | .bvs _ => .bvs
  | .bvc _ => .bvc
  | .bpl _ => .bpl

/-- The addressing mode of the row (30_encoding.md R96). -/
def Instr.mode : Instr → Mode
  | .rts | .brk | .rti | .sec | .clc | .nop => .implied
  | .adcImm _ | .ldaImm _ | .ldxImm _ => .immediate
  | .adcZp _ | .bitZp _ | .ldaZp _ | .ldxZp _ | .staZp _ | .stxZp _ => .zeroPage
  | .adcZpX _ | .ldaZpX _ | .staZpX _ => .zeroPageX
  | .ldxZpY _ | .stxZpY _ => .zeroPageY
  | .adcAbs _ | .bitAbs _ | .ldaAbs _ | .ldxAbs _ | .staAbs _ | .stxAbs _ | .jmpAbs _ | .jsr _ => .absolute
  | .adcAbsX _ | .ldaAbsX _ | .staAbsX _ => .absoluteX
  | .adcAbsY _ | .ldaAbsY _ | .ldxAbsY _ | .staAbsY _ => .absoluteY
  | .adcIndX _ | .ldaIndX _ | .staIndX _ => .indirectX
  | .adcIndY _ | .ldaIndY _ | .staIndY _ => .indirectY
  | .jmpInd _ => .absoluteIndirect
  | .bcs _ | .bcc _ | .beq _ | .bne _ | .bvs _ | .bvc _ | .bpl _ => .relative

/-- The length in bytes (30_encoding.md R92). -/
def Instr.length (i : Instr) : Nat := i.mode.length

end Sys2Proof
end

