-- ==== Sys2Proof/WellFormed.lean ====
section
/-! DEFINITION. Well-formedness: which modes each mnemonic takes (spec/30_encoding.md R96), of a table row, of a
whole table (R94, R95) and of an instruction. Operand fields have no reserved values (R98), so no value of an
operand makes an instruction ill-formed. -/

namespace Sys2Proof

/-- One registered triple of the Instruction Table (30_encoding.md R94, `InstructionDescriptor`). -/
structure Descriptor where
  opcode : Byte
  mnemonic : Mnemonic
  mode : Mode
  deriving DecidableEq, Repr

/-- The modes each mnemonic takes (30_encoding.md R96, "By mnemonic"; D6, log 14). -/
def Mnemonic.modes : Mnemonic → List Mode
  | .adc | .lda =>
    [.immediate, .zeroPage, .zeroPageX, .absolute, .absoluteX, .absoluteY, .indirectX, .indirectY]
  | .sta => [.zeroPage, .zeroPageX, .absolute, .absoluteX, .absoluteY, .indirectX, .indirectY]
  | .ldx => [.immediate, .zeroPage, .zeroPageY, .absolute, .absoluteY]
  | .stx => [.zeroPage, .zeroPageY, .absolute]
  | .bit => [.zeroPage, .absolute]
  | .jmp => [.absolute, .absoluteIndirect]
  | .jsr => [.absolute]
  | .rts | .brk | .rti | .sec | .clc | .nop => [.implied]
  | .bcs | .bcc | .beq | .bne | .bvs | .bvc | .bpl => [.relative]

/-- A row is well-formed when its mnemonic takes its mode. -/
def Descriptor.wellFormed (d : Descriptor) : Bool := d.mnemonic.modes.contains d.mode

/-- A table is well-formed when each row is, and no opcode byte is registered twice (30_encoding.md R95). -/
def wellFormedTable (t : List Descriptor) : Bool :=
  t.all Descriptor.wellFormed && decide (t.map Descriptor.opcode).Nodup

/-- An instruction is well-formed when its mnemonic takes its mode. -/
def Instr.wellFormed (i : Instr) : Bool := i.mnemonic.modes.contains i.mode

end Sys2Proof
end

