-- ==== Sys2Proof/Decode.lean ====
section
/-! DEFINITION. Byte order helpers, the opcode map, the decoder (total on any bytes, rejecting by name) and the
encoder (spec/30_encoding.md R90 to R98). Every opcode byte is the spec's from general knowledge (D6; log 14). -/

namespace Sys2Proof

/-- `lo8(v)` of 00_scope.md R9. -/
def lo8 (v : Addr) : Byte := v.extractLsb' 0 8

/-- `hi8(v)` of 00_scope.md R9. -/
def hi8 (v : Addr) : Byte := v.extractLsb' 8 8

/-- `{hi, lo}` of 00_scope.md R9. -/
def wordOf (hi lo : Byte) : Addr := hi ++ lo

/-- What an opcode byte selects: an instruction that is complete, or one that waits for its operand field
`d8` or `a16` (formats F1, F2, F3 of 30_encoding.md R91). -/
inductive Shape where
  | implied (i : Instr)
  | byte (f : Byte → Instr)
  | word (f : Addr → Instr)

/-- The opcode map (30_encoding.md R96): the whole byte is the key; a byte without an entry does not decode
(R97). -/
def opcodeShape (op : Byte) : Option Shape :=
  match op.toNat with
  | 0x00 => some (.implied .brk)
  | 0x10 => some (.byte .bpl)
  | 0x18 => some (.implied .clc)
  | 0x20 => some (.word .jsr)
  | 0x24 => some (.byte .bitZp)
  | 0x2C => some (.word .bitAbs)
  | 0x38 => some (.implied .sec)
  | 0x40 => some (.implied .rti)
  | 0x4C => some (.word .jmpAbs)
  | 0x50 => some (.byte .bvc)
  | 0x60 => some (.implied .rts)
  | 0x61 => some (.byte .adcIndX)
  | 0x65 => some (.byte .adcZp)
  | 0x69 => some (.byte .adcImm)
  | 0x6C => some (.word .jmpInd)
  | 0x6D => some (.word .adcAbs)
  | 0x70 => some (.byte .bvs)
  | 0x71 => some (.byte .adcIndY)
  | 0x75 => some (.byte .adcZpX)
  | 0x79 => some (.word .adcAbsY)
  | 0x7D => some (.word .adcAbsX)
  | 0x81 => some (.byte .staIndX)
  | 0x85 => some (.byte .staZp)
  | 0x86 => some (.byte .stxZp)
  | 0x8D => some (.word .staAbs)
  | 0x8E => some (.word .stxAbs)
  | 0x90 => some (.byte .bcc)
  | 0x91 => some (.byte .staIndY)
  | 0x95 => some (.byte .staZpX)
  | 0x96 => some (.byte .stxZpY)
  | 0x99 => some (.word .staAbsY)
  | 0x9D => some (.word .staAbsX)
  | 0xA1 => some (.byte .ldaIndX)
  | 0xA2 => some (.byte .ldxImm)
  | 0xA5 => some (.byte .ldaZp)
  | 0xA6 => some (.byte .ldxZp)
  | 0xA9 => some (.byte .ldaImm)
  | 0xAD => some (.word .ldaAbs)
  | 0xAE => some (.word .ldxAbs)
  | 0xB0 => some (.byte .bcs)
  | 0xB1 => some (.byte .ldaIndY)
  | 0xB5 => some (.byte .ldaZpX)
  | 0xB6 => some (.byte .ldxZpY)
  | 0xB9 => some (.word .ldaAbsY)
  | 0xBD => some (.word .ldaAbsX)
  | 0xBE => some (.word .ldxAbsY)
  | 0xD0 => some (.byte .bne)
  | 0xEA => some (.implied .nop)
  | 0xF0 => some (.byte .beq)
  | _ => none

/-- The Instruction Table as the spec writes it: (opcode byte, mnemonic, mode) (30_encoding.md R94 to R96). -/
def instructionTable : List Descriptor :=
  [⟨0x00#8, .brk, .implied⟩, ⟨0x10#8, .bpl, .relative⟩, ⟨0x18#8, .clc, .implied⟩, ⟨0x20#8, .jsr, .absolute⟩,
   ⟨0x24#8, .bit, .zeroPage⟩, ⟨0x2C#8, .bit, .absolute⟩, ⟨0x38#8, .sec, .implied⟩, ⟨0x40#8, .rti, .implied⟩,
   ⟨0x4C#8, .jmp, .absolute⟩, ⟨0x50#8, .bvc, .relative⟩, ⟨0x60#8, .rts, .implied⟩, ⟨0x61#8, .adc, .indirectX⟩,
   ⟨0x65#8, .adc, .zeroPage⟩, ⟨0x69#8, .adc, .immediate⟩, ⟨0x6C#8, .jmp, .absoluteIndirect⟩, ⟨0x6D#8, .adc, .absolute⟩] ++
  [⟨0x70#8, .bvs, .relative⟩, ⟨0x71#8, .adc, .indirectY⟩, ⟨0x75#8, .adc, .zeroPageX⟩, ⟨0x79#8, .adc, .absoluteY⟩,
   ⟨0x7D#8, .adc, .absoluteX⟩, ⟨0x81#8, .sta, .indirectX⟩, ⟨0x85#8, .sta, .zeroPage⟩, ⟨0x86#8, .stx, .zeroPage⟩,
   ⟨0x8D#8, .sta, .absolute⟩, ⟨0x8E#8, .stx, .absolute⟩, ⟨0x90#8, .bcc, .relative⟩, ⟨0x91#8, .sta, .indirectY⟩,
   ⟨0x95#8, .sta, .zeroPageX⟩, ⟨0x96#8, .stx, .zeroPageY⟩, ⟨0x99#8, .sta, .absoluteY⟩, ⟨0x9D#8, .sta, .absoluteX⟩] ++
  [⟨0xA1#8, .lda, .indirectX⟩, ⟨0xA2#8, .ldx, .immediate⟩, ⟨0xA5#8, .lda, .zeroPage⟩, ⟨0xA6#8, .ldx, .zeroPage⟩,
   ⟨0xA9#8, .lda, .immediate⟩, ⟨0xAD#8, .lda, .absolute⟩, ⟨0xAE#8, .ldx, .absolute⟩, ⟨0xB0#8, .bcs, .relative⟩,
   ⟨0xB1#8, .lda, .indirectY⟩, ⟨0xB5#8, .lda, .zeroPageX⟩, ⟨0xB6#8, .ldx, .zeroPageY⟩, ⟨0xB9#8, .lda, .absoluteY⟩,
   ⟨0xBD#8, .lda, .absoluteX⟩, ⟨0xBE#8, .ldx, .absoluteY⟩, ⟨0xD0#8, .bne, .relative⟩, ⟨0xEA#8, .nop, .implied⟩] ++
  [⟨0xF0#8, .beq, .relative⟩]

/-- Why bytes do not decode. -/
inductive DecodeError where
  /-- There is no byte at all. -/
  | noBytes
  /-- The opcode has no entry in the Instruction Table (30_encoding.md R97). -/
  | unimplementedOpcode (op : Byte)
  /-- The bytes end before the operand field of this opcode is complete (R91). -/
  | truncated (op : Byte)
  deriving DecidableEq, Repr

/-- The decoder (30_encoding.md R90, R93, R94): the instruction the bytes begin with, and the bytes after it. -/
def decode : List Byte → Except DecodeError (Instr × List Byte)
  | [] => .error .noBytes
  | op :: rest =>
    match opcodeShape op with
    | none => .error (.unimplementedOpcode op)
    | some (.implied i) => .ok (i, rest)
    | some (.byte f) =>
      match rest with
      | d8 :: rest => .ok (f d8, rest)
      | [] => .error (.truncated op)
    | some (.word f) =>
      match rest with
      | lo :: hi :: rest => .ok (f (wordOf hi lo), rest)
      | _ => .error (.truncated op)

/-- The encoder: the bytes of an instruction, lowest address first (30_encoding.md R91, R93, R96). -/
def encode : Instr → List Byte
  | .adcImm d8 => [0x69#8, d8]
  | .adcZp d8 => [0x65#8, d8]
  | .adcZpX d8 => [0x75#8, d8]
  | .adcAbs a16 => [0x6D#8, lo8 a16, hi8 a16]
  | .adcAbsX a16 => [0x7D#8, lo8 a16, hi8 a16]
  | .adcAbsY a16 => [0x79#8, lo8 a16, hi8 a16]
  | .adcIndX d8 => [0x61#8, d8]
  | .adcIndY d8 => [0x71#8, d8]
  | .bitZp d8 => [0x24#8, d8]
  | .bitAbs a16 => [0x2C#8, lo8 a16, hi8 a16]
  | .ldaImm d8 => [0xA9#8, d8]
  | .ldaZp d8 => [0xA5#8, d8]
  | .ldaZpX d8 => [0xB5#8, d8]
  | .ldaAbs a16 => [0xAD#8, lo8 a16, hi8 a16]
  | .ldaAbsX a16 => [0xBD#8, lo8 a16, hi8 a16]
  | .ldaAbsY a16 => [0xB9#8, lo8 a16, hi8 a16]
  | .ldaIndX d8 => [0xA1#8, d8]
  | .ldaIndY d8 => [0xB1#8, d8]
  | .ldxImm d8 => [0xA2#8, d8]
  | .ldxZp d8 => [0xA6#8, d8]
  | .ldxZpY d8 => [0xB6#8, d8]
  | .ldxAbs a16 => [0xAE#8, lo8 a16, hi8 a16]
  | .ldxAbsY a16 => [0xBE#8, lo8 a16, hi8 a16]
  | .staZp d8 => [0x85#8, d8]
  | .staZpX d8 => [0x95#8, d8]
  | .staAbs a16 => [0x8D#8, lo8 a16, hi8 a16]
  | .staAbsX a16 => [0x9D#8, lo8 a16, hi8 a16]
  | .staAbsY a16 => [0x99#8, lo8 a16, hi8 a16]
  | .staIndX d8 => [0x81#8, d8]
  | .staIndY d8 => [0x91#8, d8]
  | .stxZp d8 => [0x86#8, d8]
  | .stxZpY d8 => [0x96#8, d8]
  | .stxAbs a16 => [0x8E#8, lo8 a16, hi8 a16]
  | .jmpAbs a16 => [0x4C#8, lo8 a16, hi8 a16]
  | .jmpInd a16 => [0x6C#8, lo8 a16, hi8 a16]
  | .jsr a16 => [0x20#8, lo8 a16, hi8 a16]
  | .rts => [0x60#8]
  | .brk => [0x00#8]
  | .rti => [0x40#8]
  | .sec => [0x38#8]
  | .clc => [0x18#8]
  | .nop => [0xEA#8]
  | .bcs d8 => [0xB0#8, d8]
  | .bcc d8 => [0x90#8, d8]
  | .beq d8 => [0xF0#8, d8]
  | .bne d8 => [0xD0#8, d8]
  | .bvs d8 => [0x70#8, d8]
  | .bvc d8 => [0x50#8, d8]
  | .bpl d8 => [0x10#8, d8]

/-- The first `n` bytes of a number, least significant byte first. -/
def bytesOfNat : Nat → Nat → List Byte
  | 0, _ => []
  | n + 1, w => BitVec.ofNat 8 w :: bytesOfNat n (w / 256)

/-- The bytes the host's word stands for: `nbits` bits of `w`, zeros above, up to the longest instruction. -/
def tableBytes (nbits w : Nat) : List Byte := bytesOfNat 3 (w % 2 ^ nbits)

/-- The instruction the decoder reads from an instruction whose bits are `w`, numbered as
spec/opcode_table.json numbers them (the first byte is bits 7..0). -/
def decodeTableWord (nbits w : Nat) : Option Instr :=
  match decode (tableBytes nbits w) with
  | .ok (i, _) => some i
  | .error _ => none

end Sys2Proof
end

