-- ==== Sys2Proof/Config.lean ====
section
/-! DEFINITION. What one hardware fixes (spec/00_scope.md R7) and the free values the spec leaves open.
An `opaque` constant has no body: nothing can be proved of its value. -/

namespace Sys2Proof

/-- What the graphics facade answers to a register read (20_memory.md R59): any byte, or the failure. -/
inductive GfxAnswer where
  | byte (b : Byte)
  | invalidRegisterAccess
  deriving DecidableEq, Repr, Inhabited

/-- One access to the graphics facade, recorded in order (20_memory.md R59, R60).
A failing access is an access and is recorded too (log 10). -/
inductive GfxEvent where
  /-- `GfxRead(r)` and what it answered. -/
  | read (r : GfxReg) (answer : GfxAnswer)
  /-- `GfxWrite(r, v)` and whether it was accepted. -/
  | write (r : GfxReg) (v : Byte) (accepted : Bool)
  /-- `GfxBulkLoad(bytes)`. -/
  | bulkLoad (bytes : List Byte)
  deriving DecidableEq, Repr

/-- FREE VALUE (20_memory.md R59, 93_implementation_defined.md U5, U6; log 9): what the facade answers to a
read of register `r` after the accesses recorded so far. -/
opaque Config.gfxRead : List GfxEvent → GfxReg → GfxAnswer

/-- FREE VALUE (20_memory.md R60, 93_implementation_defined.md U6; log 9, 10): whether the facade accepts a
write after the accesses recorded so far; a refused write is InvalidRegisterAccess. -/
opaque Config.gfxWriteAccepted : List GfxEvent → GfxReg → Byte → Bool

/-- FREE VALUE (20_memory.md R63, 93_implementation_defined.md U7; log 11): the byte the n-th read of 0x4014
returns. -/
opaque Config.portByte : Nat → Byte

/-- OPEN parameter `STEP_CYCLES` (40_step_and_addressing.md R113; log 7): the cycles every step costs. -/
opaque Config.stepCycles : Nat

/-- FREE VALUE (70_reset_and_hazards.md R236; log 25): whether a file of this length, below the minimum, is
EmptyFile (else it is InvalidHeader). -/
opaque Config.shortFileIsEmpty : Nat → Bool

/-- FREE VALUE (70_reset_and_hazards.md R237; log 25): of a file that both declares a trainer and is too
short, whether the loader reports the trainer. -/
opaque Config.trainerReportedFirst : Bool

/-- `ZP_WRAP_MODULUS` (40_step_and_addressing.md R117; log 16). -/
def Config.zpWrapModulus : Nat := 255

/-- `JMP_INDIRECT_PAGE_WRAP` (40_step_and_addressing.md R128; log 19). -/
def Config.jmpIndirectPageWrap : Bool := false

/-- `ADC_SYMMETRIC_OVERFLOW` (41_alu.md R140; log 17). -/
def Config.adcSymmetricOverflow : Bool := false

/-- `RESET_P` (10_state.md R26; log 6): InterruptDisable and Unused set. -/
def Config.resetP : Byte := 0x24#8

/-- Default of the OPEN parameter `RESET_SP` (10_state.md R25; log 4). -/
def Config.resetSp : Byte := 0xFD#8

/-- Default of the OPEN parameter `RESET_CYC`, non-zero (10_state.md R36; log 5). -/
def Config.resetCyc : Nat := 7

/-- What a storage byte that `Memory` does not list reads as (DESIGN CHOICE, log 2). -/
def Config.unlistedByte : Byte := 0#8

end Sys2Proof
end

