-- ==== Sys2Proof/Machine/State.lean ====
section
/-! DEFINITION. The machine state (spec/10_state.md), the reasons a step can stop, and the state after reset.
The graphics facade's own state is outside the machine (R43); the record of accesses to it is kept (20_memory.md
R59, R60). -/

namespace Sys2Proof.Machine

/-- The storage bytes, by cell number, in one canonical form (log 1, log 2): cell numbers strictly rising, and no
byte equal to `Config.unlistedByte`. Cells: RAM 0x0000 to 0x07FF, the inert store 0x4000 to 0x4020 but 0x4014,
cartridge RAM 0x6000 to 0x7FFF, and the PRG image from 0x8000 on (10_state.md R37, R39, R40, R41). -/
abbrev Memory := List Host.Cell

/-- The size of the PRG image (10_state.md R41, 20_memory.md R64): 16384 or 32768 bytes, nothing else (D16). -/
inductive PrgSize where
  | half
  | full
  deriving DecidableEq, Repr

/-- `len(PRG)` (10_state.md R41). -/
def PrgSize.bytes : PrgSize → Nat
  | .half => 0x4000
  | .full => 0x8000

/-- The runtime errors (60_exceptions.md R200 to R203): identified by name, with the information the spec
attaches to each (D26). -/
inductive RuntimeError where
  | unimplementedOpcode (op : Byte)
  | invalidBusAddress (a : Addr)
  | invalidRegisterAccess
  deriving DecidableEq, Repr

/-- The run status (10_state.md R45): running, or halted with one error. -/
inductive RunStatus where
  | running
  | halted (e : RuntimeError)
  deriving DecidableEq, Repr

/-- Everything the spec gives the machine. -/
structure State where
  /-- The accumulator A (10_state.md R20). -/
  a : Byte
  /-- Index register X (R21). -/
  x : Byte
  /-- Index register Y (R22). -/
  y : Byte
  /-- The program counter (R23, R24). -/
  pc : Addr
  /-- The stack pointer SP (R25). -/
  sp : Byte
  /-- The status byte P: C Z I D B U V N in bits 0 to 7 (R26, R27). -/
  p : Byte
  /-- The cycle counter, unbounded (R36). -/
  cyc : Nat
  /-- RAM, IO, CRAM and the PRG image (R37 to R41). -/
  mem : Memory
  /-- The size of the PRG image (R41). -/
  prgSize : PrgSize
  /-- The accesses made to the graphics facade, oldest first (20_memory.md R59, R60). -/
  gfxLog : List GfxEvent
  /-- The model's own field (log 11): how many reads of 0x4014 were made. -/
  draws : Nat
  /-- Running, or halted with one error (10_state.md R45). -/
  status : RunStatus
  deriving DecidableEq, Repr

/-- Why the machine stops. Each carries the halted machine `post`, for post-mortem inspection (60_exceptions.md
R204, R205; log 13): the registers as at the failing step's start, the facade accesses already made standing. -/
inductive Fault where
  /-- Raised by the dispatch of `step`, when the fetched opcode byte has no entry in the Instruction Table
  (60_exceptions.md R201). Safe: the spec halts the machine here. -/
  | unimplementedOpcode (op : Byte) (post : State)
  /-- Raised by any bus access to 0x4021 to 0x5FFF: a fetch, a pointer or operand read, a store, a source read
  of the bulk transfer (R202). Safe: the spec halts the machine here. -/
  | invalidBusAddress (a : Addr) (post : State)
  /-- Raised by an access to 0x2000 to 0x3FFF that the graphics facade fails, at its discretion (R203). Safe: a
  failure the real facade may never show (log 10). -/
  | invalidRegisterAccess (post : State)
  deriving DecidableEq, Repr

/-- Why the model gives a step no meaning. -/
inductive Refusal where
  /-- Raised by an arm of `exec` whose instruction has no meaning yet. Safe: nothing is claimed of it. -/
  | notModelled (mnemonic : String)
  /-- Raised by a write into the PRG window 0x8000 to 0xFFFF, which has no specified effect (20_memory.md R65,
  log 12). Safe: nothing is claimed of it. -/
  | prgRomWrite (a : Addr)
  deriving DecidableEq, Repr

/-- The outcome of a step or of an instruction. -/
abbrev Outcome := Host.Outcome State Fault Refusal

/-- The fault an error ends in, with the halted machine. -/
def RuntimeError.toFault (e : RuntimeError) (post : State) : Fault :=
  match e with
  | .unimplementedOpcode op => .unimplementedOpcode op post
  | .invalidBusAddress a => .invalidBusAddress a post
  | .invalidRegisterAccess => .invalidRegisterAccess post

/-- The error a fault reports. -/
def Fault.error : Fault → RuntimeError
  | .unimplementedOpcode op _ => .unimplementedOpcode op
  | .invalidBusAddress a _ => .invalidBusAddress a
  | .invalidRegisterAccess _ => .invalidRegisterAccess

/-- The halted machine a fault leaves. -/
def Fault.post : Fault → State
  | .unimplementedOpcode _ s => s
  | .invalidBusAddress _ s => s
  | .invalidRegisterAccess s => s

def State.setA (v : Byte) (s : State) : State := { s with a := v }
def State.setX (v : Byte) (s : State) : State := { s with x := v }
def State.setPc (v : Addr) (s : State) : State := { s with pc := v }
def State.setSp (v : Byte) (s : State) : State := { s with sp := v }
def State.setP (v : Byte) (s : State) : State := { s with p := v }
def State.setCyc (v : Nat) (s : State) : State := { s with cyc := v }
def State.setMem (m : Memory) (s : State) : State := { s with mem := m }
def State.setStatus (r : RunStatus) (s : State) : State := { s with status := r }

/-- The facade access `e` is added to the record. -/
def State.record (e : GfxEvent) (s : State) : State := { s with gfxLog := s.gfxLog ++ [e] }

/-- One more read of 0x4014 was made. -/
def State.nextDraw (s : State) : State := { s with draws := s.draws + 1 }

/-- The machine right after a Reset with nothing loaded (10_state.md R47, 70_reset_and_hazards.md R230): a blank
full-size image (log 3), so the reset vector read through the bus is 0x0000; RAM, IO and CRAM list nothing (log 2);
SP and the cycle counter at the spec's defaults (log 4, log 5); nothing asked of the facade yet (log 27). Reset
with a cartridge, an override and any memory contents is `hostReset` (Machine/Reset.lean). -/
def State.reset : State where
  a := 0#8
  x := 0#8
  y := 0#8
  pc := 0x0000#16
  sp := Config.resetSp
  p := Config.resetP
  cyc := Config.resetCyc
  mem := []
  prgSize := .full
  gfxLog := []
  draws := 0
  status := .running

end Sys2Proof.Machine
end

