-- ==== Sys2Proof/Machine/Flags.lean ====
section
/-! DEFINITION. The status byte: reading and writing a flag (spec/10_state.md R27 to R29), and every flag
computation the spec gives (41_alu.md R140, R141; 42_load_store.md R150). -/

namespace Sys2Proof.Machine

/-- The eight flags (10_state.md R27). -/
inductive Flag where
  | carry
  | zero
  | interruptDisable
  | decimal
  | brk
  | unused
  | overflow
  | negative
  deriving DecidableEq, Repr

/-- The fixed bit positions (10_state.md R27). -/
def Flag.pos : Flag → Nat
  | .carry => 0
  | .zero => 1
  | .interruptDisable => 2
  | .decimal => 3
  | .brk => 4
  | .unused => 5
  | .overflow => 6
  | .negative => 7

/-- `mask(F)`: `1 << position` (00_scope.md R8). -/
def Flag.mask (f : Flag) : Byte := 1#8 <<< f.pos

/-- `GetFlag(F)` (10_state.md R28). -/
def getFlag (f : Flag) (p : Byte) : Bool := p.getLsbD f.pos

/-- `SetFlag(F, b)` on the status byte (10_state.md R29). -/
def setFlag (f : Flag) (b : Bool) (p : Byte) : Byte := if b then p ||| f.mask else p &&& ~~~f.mask

/-- `F <- b`. -/
def State.setFlag (f : Flag) (b : Bool) (s : State) : State := s.setP (Machine.setFlag f b s.p)

/-- `SetNZ(v)` on the status byte (42_load_store.md R150). -/
def setNZ (v : Byte) (p : Byte) : Byte := setFlag .negative v.msb (setFlag .zero (v == 0#8) p)

/-- The 9-bit intermediate of ADC (41_alu.md R140): 0 to 511. -/
def adcSum (a m : Byte) (c : Bool) : Nat := a.toNat + m.toNat + c.toNat

/-- The truncated result of ADC (R140). -/
def adcResult (a m : Byte) (c : Bool) : Byte := BitVec.ofNat 8 (adcSum a m c)

/-- The carry of ADC (R140): `t > 255`. -/
def adcCarry (a m : Byte) (c : Bool) : Bool := decide (255 < adcSum a m c)

/-- The one-sided overflow of ADC (R140, D3; log 17): positive plus positive giving negative; the symmetric case
only where `ADC_SYMMETRIC_OVERFLOW` says so. -/
def adcOverflow (a m : Byte) (c : Bool) : Bool :=
  (!a.msb && !m.msb && (adcResult a m c).msb) ||
    (Config.adcSymmetricOverflow && (a.msb && m.msb && !(adcResult a m c).msb))

/-- The status byte after ADC: C, V, Z, N assigned (R140); D is not read. -/
def adcStatus (a m p : Byte) : Byte :=
  let c := getFlag .carry p
  setNZ (adcResult a m c) (setFlag .overflow (adcOverflow a m c) (setFlag .carry (adcCarry a m c) p))

/-- The status byte after BIT: Z from the AND, V and N from bits 6 and 7 of the operand (41_alu.md R141). -/
def bitStatus (a m p : Byte) : Byte :=
  setFlag .negative (m.getLsbD 7) (setFlag .overflow (m.getLsbD 6) (setFlag .zero ((a &&& m) == 0#8) p))

/-- Break and Unused forced to 1 in the copy BRK pushes (44_break_return.md R170). -/
def pushedStatus (p : Byte) : Byte := p ||| 0x30#8

/-- Bit 4 cleared in the byte RTI pops, the other seven as popped (44_break_return.md R171). -/
def poppedStatus (b : Byte) : Byte := b &&& 0xEF#8

end Sys2Proof.Machine
end

