-- ==== Sys2Proof/Machine/Ops.lean ====
section
/-! DEFINITION. The named operations: memory cells, the bus with its routing (spec/20_memory.md), the bulk transfer,
the stack (10_state.md R30 to R34), entering and leaving a break (60_exceptions.md R210, R211), raising an error
(R204, R205) and ending a step (40_step_and_addressing.md R113). -/

namespace Sys2Proof.Machine

/-! ### Storage cells -/

/-- The byte of a cell. -/
def Memory.read : Memory → Nat → Byte
  | [], _ => Config.unlistedByte
  | (k, b) :: m, i => if k = i then b else Memory.read m i

/-- One byte replaced; the canonical form is kept. -/
def Memory.write : Memory → Nat → Byte → Memory
  | [], i, v => if v = Config.unlistedByte then [] else [(i, v)]
  | (k, b) :: m, i, v =>
    if i < k then
      if v = Config.unlistedByte then (k, b) :: m else (i, v) :: (k, b) :: m
    else if i = k then
      if v = Config.unlistedByte then m else (i, v) :: m
    else (k, b) :: Memory.write m i v

/-- The canonical form, for cells numbered `lo` or more. -/
def Memory.wfFrom : Nat → Memory → Bool
  | _, [] => true
  | lo, (k, b) :: m => decide (lo ≤ k) && decide (b ≠ Config.unlistedByte) && Memory.wfFrom (k + 1) m

/-- The canonical form: cell numbers strictly rising, and no entry equal to what an unlisted cell reads as. -/
def Memory.wf (m : Memory) : Bool := Memory.wfFrom 0 m

/-! ### Routing (20_memory.md R51, R52, R56) -/

/-- The regions of the address space (R75). -/
inductive Region where
  | ram
  | graphics
  | bulkTrigger
  | inertStore
  | unmapped
  | cartRam
  | prgRom
  deriving DecidableEq, Repr

/-- Every address has exactly one region (R51, R56). -/
def route (a : Addr) : Region :=
  if a.toNat < 0x2000 then .ram
  else if a.toNat < 0x4000 then .graphics
  else if a.toNat = 0x4014 then .bulkTrigger
  else if a.toNat < 0x4021 then .inertStore
  else if a.toNat < 0x6000 then .unmapped
  else if a.toNat < 0x8000 then .cartRam
  else .prgRom

/-- The regions backed by storage the bus owns or maps. -/
def Region.stored : Region → Bool
  | .ram | .inertStore | .cartRam | .prgRom => true
  | .graphics | .bulkTrigger | .unmapped => false

/-- The regions a write stores in. -/
def Region.writable : Region → Bool
  | .ram | .inertStore | .cartRam => true
  | .graphics | .bulkTrigger | .unmapped | .prgRom => false

/-- The cell an address reaches: RAM mirrored every 0x0800 (R54), the PRG image mirrored by its length (R64),
every other cell under its own address (R61, R66). -/
def cellOf (size : PrgSize) (a : Addr) : Nat :=
  match route a with
  | .ram => a.toNat % 0x0800
  | .prgRom => 0x8000 + (a.toNat - 0x8000) % size.bytes
  | .graphics | .bulkTrigger | .inertStore | .unmapped | .cartRam => a.toNat

/-- The cells that exist (10_state.md R37, R39, R40, R41). -/
def isCell (size : PrgSize) (k : Nat) : Bool :=
  decide (k < 0x0800) || (decide (0x4000 ≤ k ∧ k < 0x4021) && decide (k ≠ 0x4014)) ||
    decide (0x6000 ≤ k ∧ k < 0x8000 + size.bytes)

/-- The register an address in the graphics window reaches: `a[2:0]` (R55). -/
def gfxRegOf (a : Addr) : GfxReg := a.setWidth 3

/-- The storage byte an address reads, with no side effect; none where no storage stands behind it. -/
def State.peek (s : State) (a : Addr) : Option Byte :=
  if (route a).stored then some (s.mem.read (cellOf s.prgSize a)) else none

/-! ### Running one access after another -/

/-- Why a step is abandoned: an error is raised, or the step has no meaning. -/
inductive Stop where
  | raise (e : RuntimeError)
  | refuse (r : Refusal)
  deriving DecidableEq, Repr

/-- Part of a step: a value and the state so far, or the reason to abandon the step and the state at that
point. -/
inductive Run (α : Type) where
  | ok (v : α) (s : State)
  | stop (why : Stop) (s : State)
  deriving DecidableEq, Repr

/-- Do `r`, then `f` with its value: the first stop abandons the step (60_exceptions.md R209). -/
def Run.andThen {α β : Type} (r : Run α) (f : α → State → Run β) : Run β :=
  match r with
  | .ok v s => f v s
  | .stop why s => .stop why s

/-! ### The bus -/

/-- `GfxRead(r)` (20_memory.md R59): the facade's answer, recorded. -/
def gfxRead (r : GfxReg) (s : State) : Run Byte :=
  match Config.gfxRead s.gfxLog r with
  | .byte b => .ok b (s.record (.read r (.byte b)))
  | .invalidRegisterAccess =>
    .stop (.raise .invalidRegisterAccess) (s.record (.read r .invalidRegisterAccess))

/-- `GfxWrite(r, v)` (20_memory.md R60), recorded; no extra cycles. -/
def gfxWrite (r : GfxReg) (v : Byte) (s : State) : Run Nat :=
  if Config.gfxWriteAccepted s.gfxLog r v then .ok 0 (s.record (.write r v true))
  else .stop (.raise .invalidRegisterAccess) (s.record (.write r v false))

/-- The read of 0x4014 (20_memory.md R63): a free value, no other effect. -/
def readPort (s : State) : Run Byte := .ok (Config.portByte s.draws) s.nextDraw

/-- `Read(a)` (20_memory.md R51). -/
def busRead (a : Addr) (s : State) : Run Byte :=
  match route a with
  | .ram | .inertStore | .cartRam | .prgRom => .ok (s.mem.read (cellOf s.prgSize a)) s
  | .graphics => gfxRead (gfxRegOf a) s
  | .bulkTrigger => readPort s
  | .unmapped => .stop (.raise (.invalidBusAddress a)) s

/-- `Read16(a)` (20_memory.md R53): the low byte first, the high byte at `a + 1` with a full 16-bit carry. -/
def read16 (a : Addr) (s : State) : Run Addr :=
  (busRead a s).andThen fun lo s => (busRead (a + 1#16) s).andThen fun hi s => .ok (wordOf hi lo) s

/-- `n` bus reads at ascending addresses. -/
def readRun : Nat → Addr → State → Run (List Byte)
  | 0, _, s => .ok [] s
  | n + 1, a, s =>
    (busRead a s).andThen fun b s => (readRun n (a + 1#16) s).andThen fun bs s => .ok (b :: bs) s

/-- The bulk transfer of a write of `v` to 0x4014 (20_memory.md R62, R77): 256 ordinary reads from `v * 256` up,
then one `GfxBulkLoad`; 513 extra cycles, 514 if the cycle count `c` is odd. -/
def bulkTransfer (v : Byte) (c : Nat) (s : State) : Run Nat :=
  (readRun 256 (wordOf v 0#8) s).andThen fun bytes s => .ok (513 + c % 2) (s.record (.bulkLoad bytes))

/-- `Write(a, v, c)` (20_memory.md R52): the extra cycles, or the reason it stops. A write into the PRG window has
no specified effect and is refused (R65, log 12). -/
def busWrite (a : Addr) (v : Byte) (c : Nat) (s : State) : Run Nat :=
  match route a with
  | .ram | .inertStore | .cartRam => .ok 0 (s.setMem (s.mem.write (cellOf s.prgSize a) v))
  | .graphics => gfxWrite (gfxRegOf a) v s
  | .bulkTrigger => bulkTransfer v c s
  | .unmapped => .stop (.raise (.invalidBusAddress a)) s
  | .prgRom => .stop (.refuse (.prgRomWrite a)) s

/-- `MemWrite(a, 1, v)` (00_scope.md R11): the cycle count it is given is the one at the step's start, which
`cyc` still holds during the step (40_step_and_addressing.md R113). -/
def memWrite (a : Addr) (v : Byte) (s : State) : Run Nat := busWrite a v s.cyc s

/-! ### The stack (10_state.md R30 to R34) -/

/-- The address of the stack slot `sp`: `0x0100 | sp` (R30). -/
def stackAddr (sp : Byte) : Addr := 0x0100#16 ||| sp.setWidth 16

/-- `Push(b)` (R31). -/
def push (b : Byte) (s : State) : Run Nat :=
  (memWrite (stackAddr s.sp) b s).andThen fun extra s => .ok extra (s.setSp (s.sp - 1#8))

/-- `Pop()` (R32). -/
def pop (s : State) : Run Byte := busRead (stackAddr (s.sp + 1#8)) (s.setSp (s.sp + 1#8))

/-- `Push16(w)`: the low byte, then the high byte (R33). -/
def push16 (w : Addr) (s : State) : Run Nat :=
  (push (lo8 w) s).andThen fun e1 s => (push (hi8 w) s).andThen fun e2 s => .ok (e1 + e2) s

/-- `Pop16()`: the high byte, then the low byte (R34). -/
def pop16 (s : State) : Run Addr :=
  (pop s).andThen fun hi s => (pop s).andThen fun lo s => .ok (wordOf hi lo) s

/-! ### Entering and leaving a break (60_exceptions.md R210, R211) -/

/-- The interrupt and break vector (20_memory.md R75). -/
def breakVector : Addr := 0xFFFE#16

/-- The reset vector (20_memory.md R75). -/
def resetVector : Addr := 0xFFFC#16

/-- Taking the break: the pc (already past the opcode) and the status with Break and Unused set are pushed, the
pc is loaded from the vector, InterruptDisable is set (44_break_return.md R170). -/
def enterBreak (s : State) : Run Nat :=
  (push16 s.pc s).andThen fun e1 s =>
    (push (pushedStatus s.p) s).andThen fun e2 s =>
      (read16 breakVector s).andThen fun target s =>
        .ok (e1 + e2) ((s.setPc target).setFlag .interruptDisable true)

/-- Returning: the status is popped, with Break cleared, then the pc (44_break_return.md R171). -/
def leaveBreak (s : State) : Run Nat :=
  (pop s).andThen fun b s => (pop16 (s.setP (poppedStatus b))).andThen fun target s => .ok 0 (s.setPc target)

/-! ### The end of a step -/

/-- The halted machine after an error (60_exceptions.md R204, R205): the registers of `start`, the step's start;
what the bus and the facade hold at the raise stands. -/
def State.abandon (s start : State) (e : RuntimeError) : State :=
  { s with a := start.a, x := start.x, y := start.y, pc := start.pc, sp := start.sp, p := start.p,
           cyc := start.cyc, status := .halted e }

/-- How an abandoned step ends: an error halts the machine, a refusal gives the step no meaning. -/
def stopped (why : Stop) (start s : State) : Outcome :=
  match why with
  | .raise e => .fault (e.toFault (s.abandon start e))
  | .refuse r => .refused r

/-- The end of a step (40_step_and_addressing.md R110, R113): `cyc <- cyc0 + STEP_CYCLES + extra`. -/
def Run.finish (r : Run Nat) (start : State) : Outcome :=
  match r with
  | .ok extra s => .next (s.setCyc (start.cyc + Config.stepCycles + extra))
  | .stop why s => stopped why start s

/-- The pc past an instruction of `n` bytes (10_state.md R23, R24). -/
def State.advance (n : Nat) (s : State) : State := s.setPc (s.pc + BitVec.ofNat 16 n)

/-- An instruction of `n` bytes whose bytes have been fetched: the pc moves past it, `body` runs, the step ends.
`body` answers the extra cycles of its writes. -/
def instruction (n : Nat) (body : State → Run Nat) (s : State) : Outcome := (body (s.advance n)).finish s

/-- A handler that makes no bus access. -/
def quiet (f : State → State) (s : State) : Run Nat := .ok 0 (f s)

end Sys2Proof.Machine
end

