-- ==== Sys2Proof/Machine/Operands.lean ====
section
/-! DEFINITION. The addressing-mode resolver (spec/40_step_and_addressing.md R114 to R130). The operand bytes
have been fetched (Machine/Fetch.lean) and the pc is past the instruction (log 28). -/

namespace Sys2Proof.Machine

/-- `zext_16(b)` (00_scope.md R9). -/
def zext16 (b : Byte) : Addr := b.setWidth 16

/-- `sext_16(b)` (00_scope.md R9). -/
def sext16 (b : Byte) : Addr := b.signExtend 16

/-- The zero-page index sum `ZpIndex(b, i)` as a 16-bit address (R117): an integer sum, then the modulus. -/
def zpIndex (b i : Byte) : Addr := BitVec.ofNat 16 ((b.toNat + i.toNat) % Config.zpWrapModulus)

/-- The ten modes that have an effective address, with their operand field (R118, R119 have none). -/
inductive EaMode where
  | zeroPage (d8 : Byte)
  | zeroPageX (d8 : Byte)
  | zeroPageY (d8 : Byte)
  | absolute (a16 : Addr)
  | absoluteX (a16 : Addr)
  | absoluteY (a16 : Addr)
  | indirectX (d8 : Byte)
  | indirectY (d8 : Byte)
  | absoluteIndirect (a16 : Addr)
  | relative (d8 : Byte)
  deriving DecidableEq, Repr

/-- The length of an instruction with this operand (30_encoding.md R92). -/
def EaMode.length : EaMode → Nat
  | .zeroPage _ | .zeroPageX _ | .zeroPageY _ | .indirectX _ | .indirectY _ | .relative _ => 2
  | .absolute _ | .absoluteX _ | .absoluteY _ | .absoluteIndirect _ => 3

/-- Where the high byte of the pointer at `p` stands in AbsoluteIndirect (R128): at `p + 1`; under
`JMP_INDIRECT_PAGE_WRAP`, which this hardware has off, a pointer at 0xnnFF takes it from 0xnn00. -/
def pointerHigh (p : Addr) : Addr :=
  if Config.jmpIndirectPageWrap && lo8 p == 0xFF#8 then wordOf (hi8 p) 0#8 else p + 1#16

/-- The pointer of AbsoluteIndirect (R128): low byte first. -/
def readPointer (p : Addr) (s : State) : Run Addr :=
  (busRead p s).andThen fun lo s => (busRead (pointerHigh p) s).andThen fun hi s => .ok (wordOf hi lo) s

/-- The effective address of each mode (R120 to R129); all sums mod 65536 (10_state.md R24). -/
def effectiveAddress (o : EaMode) (s : State) : Run Addr :=
  match o with
  | .zeroPage d8 => .ok (zext16 d8) s
  | .zeroPageX d8 => .ok (zpIndex d8 s.x) s
  | .zeroPageY d8 => .ok (zpIndex d8 s.y) s
  | .absolute a16 => .ok a16 s
  | .absoluteX a16 => .ok (a16 + zext16 s.x) s
  | .absoluteY a16 => .ok (a16 + zext16 s.y) s
  | .indirectX d8 => read16 (zpIndex d8 s.x) s
  | .indirectY d8 => (read16 (zext16 d8) s).andThen fun base s => .ok (base + zext16 s.y) s
  | .absoluteIndirect a16 => readPointer a16 s
  | .relative d8 => .ok (s.pc + sext16 d8) s

/-- An instruction with an effective address: `Resolve` ends with the operand read at `ea`, whatever the
mnemonic (R115), then the handler runs with `(ea, m)`. -/
def withOperand (o : EaMode) (handler : Addr → Byte → State → Run Nat) (s : State) : Outcome :=
  instruction o.length
    (fun s => (effectiveAddress o s).andThen fun ea s => (busRead ea s).andThen fun m s => handler ea m s) s

/-- An Immediate instruction (R119): the operand is the byte itself, no further read. -/
def withImmediate (d8 : Byte) (f : Byte → State → State) (s : State) : Outcome :=
  instruction 2 (quiet (f d8)) s

/-- An Implied instruction (R118): no operand. -/
def withImplied (handler : State → Run Nat) (s : State) : Outcome := instruction 1 handler s

/-- An instruction that reads its operand from memory and makes no access of its own. -/
def withLoad (o : EaMode) (f : Byte → State → State) (s : State) : Outcome :=
  withOperand o (fun _ m s => quiet (f m) s) s

end Sys2Proof.Machine
end

