-- ==== Sys2Proof/Machine/Alu.lean ====
section
/-! DEFINITION. ADC and BIT (spec/41_alu.md R140, R141). -/

namespace Sys2Proof.Machine

/-- ADC with operand `m` (R140): the sum into A; C, V, Z, N assigned. -/
def addWithCarry (m : Byte) (s : State) : State :=
  (s.setP (adcStatus s.a m s.p)).setA (adcResult s.a m (getFlag .carry s.p))

/-- BIT with operand `m` (R141): only Z, V, N are written. -/
def bitTest (m : Byte) (s : State) : State := s.setP (bitStatus s.a m s.p)

/-- ADC Immediate, 0x69 (41_alu.md R140; 40_step_and_addressing.md R119). -/
def execAdcImm (d8 : Byte) (s : State) : Outcome := withImmediate d8 addWithCarry s

/-- ADC ZeroPage, 0x65 (41_alu.md R140; 40_step_and_addressing.md R120). -/
def execAdcZp (d8 : Byte) (s : State) : Outcome := withLoad (.zeroPage d8) addWithCarry s

/-- ADC ZeroPageX, 0x75 (41_alu.md R140; 40_step_and_addressing.md R121). -/
def execAdcZpX (d8 : Byte) (s : State) : Outcome := withLoad (.zeroPageX d8) addWithCarry s

/-- ADC Absolute, 0x6D (41_alu.md R140; 40_step_and_addressing.md R123). -/
def execAdcAbs (a16 : Addr) (s : State) : Outcome := withLoad (.absolute a16) addWithCarry s

/-- ADC AbsoluteX, 0x7D (41_alu.md R140; 40_step_and_addressing.md R124). -/
def execAdcAbsX (a16 : Addr) (s : State) : Outcome := withLoad (.absoluteX a16) addWithCarry s

/-- ADC AbsoluteY, 0x79 (41_alu.md R140; 40_step_and_addressing.md R125). -/
def execAdcAbsY (a16 : Addr) (s : State) : Outcome := withLoad (.absoluteY a16) addWithCarry s

/-- ADC IndirectX, 0x61 (41_alu.md R140; 40_step_and_addressing.md R126). -/
def execAdcIndX (d8 : Byte) (s : State) : Outcome := withLoad (.indirectX d8) addWithCarry s

/-- ADC IndirectY, 0x71 (41_alu.md R140; 40_step_and_addressing.md R127). -/
def execAdcIndY (d8 : Byte) (s : State) : Outcome := withLoad (.indirectY d8) addWithCarry s

/-- BIT ZeroPage, 0x24 (41_alu.md R141; 40_step_and_addressing.md R120). -/
def execBitZp (d8 : Byte) (s : State) : Outcome := withLoad (.zeroPage d8) bitTest s

/-- BIT Absolute, 0x2C (41_alu.md R141; 40_step_and_addressing.md R123). -/
def execBitAbs (a16 : Addr) (s : State) : Outcome := withLoad (.absolute a16) bitTest s

end Sys2Proof.Machine
end

