-- ==== Sys2Proof/Machine/Branch.lean ====
section
/-! DEFINITION. The seven conditional branches (spec/46_branches.md R190 to R197); which flag and polarity each
name means is the spec's decision D7 (log 15). -/

namespace Sys2Proof.Machine

/-- The common branch rule (R190): `if cond: pc <- ea`, where `cond` is that the flag has the wanted value. The
byte at the target has been read either way. -/
def branchIf (f : Flag) (wanted : Bool) (ea : Addr) (_m : Byte) (s : State) : Run Nat :=
  quiet (fun s => if getFlag f s.p = wanted then s.setPc ea else s) s

/-- BCS Relative, 0xB0 (46_branches.md R191; 40_step_and_addressing.md R129). -/
def execBcs (d8 : Byte) (s : State) : Outcome := withOperand (.relative d8) (branchIf .carry true) s

/-- BCC Relative, 0x90 (46_branches.md R192; 40_step_and_addressing.md R129). -/
def execBcc (d8 : Byte) (s : State) : Outcome := withOperand (.relative d8) (branchIf .carry false) s

/-- BEQ Relative, 0xF0 (46_branches.md R193; 40_step_and_addressing.md R129). -/
def execBeq (d8 : Byte) (s : State) : Outcome := withOperand (.relative d8) (branchIf .zero true) s

/-- BNE Relative, 0xD0 (46_branches.md R194; 40_step_and_addressing.md R129). -/
def execBne (d8 : Byte) (s : State) : Outcome := withOperand (.relative d8) (branchIf .zero false) s

/-- BVS Relative, 0x70 (46_branches.md R195; 40_step_and_addressing.md R129). -/
def execBvs (d8 : Byte) (s : State) : Outcome := withOperand (.relative d8) (branchIf .overflow true) s

/-- BVC Relative, 0x50 (46_branches.md R196; 40_step_and_addressing.md R129). -/
def execBvc (d8 : Byte) (s : State) : Outcome := withOperand (.relative d8) (branchIf .overflow false) s

/-- BPL Relative, 0x10 (46_branches.md R197; 40_step_and_addressing.md R129). -/
def execBpl (d8 : Byte) (s : State) : Outcome := withOperand (.relative d8) (branchIf .negative false) s

end Sys2Proof.Machine
end

