-- ==== Sys2Proof/Machine/Break.lean ====
section
/-! DEFINITION. BRK and RTI (spec/44_break_return.md R170, R171), over the shared entry and return of Ops. -/

namespace Sys2Proof.Machine

/-- BRK Implied, 0x00 (44_break_return.md R170; 40_step_and_addressing.md R118). -/
def execBrk (s : State) : Outcome := withImplied enterBreak s

/-- RTI Implied, 0x40 (44_break_return.md R171; 40_step_and_addressing.md R118). -/
def execRti (s : State) : Outcome := withImplied leaveBreak s

end Sys2Proof.Machine
end

