-- ==== Sys2Proof/Machine/FlagOps.lean ====
section
/-! DEFINITION. SEC, CLC, NOP (spec/45_flags_nop.md R180 to R182). -/

namespace Sys2Proof.Machine

/-- SEC Implied, 0x38 (45_flags_nop.md R180; 40_step_and_addressing.md R118). -/
def execSec (s : State) : Outcome := withImplied (quiet (State.setFlag .carry true)) s

/-- CLC Implied, 0x18 (45_flags_nop.md R181; 40_step_and_addressing.md R118). -/
def execClc (s : State) : Outcome := withImplied (quiet (State.setFlag .carry false)) s

/-- NOP Implied, 0xEA (45_flags_nop.md R182; 40_step_and_addressing.md R118). -/
def execNop (s : State) : Outcome := withImplied (quiet id) s

end Sys2Proof.Machine
end

