-- ==== Sys2Proof/Machine/Jump.lean ====
section
/-! DEFINITION. JMP, JSR, RTS (spec/43_jumps_subroutines.md R160 to R162). -/

namespace Sys2Proof.Machine

/-- `pc <- ea` (R160); the byte read at the target is ignored. -/
def jump (ea : Addr) (_m : Byte) (s : State) : Run Nat := quiet (State.setPc ea) s

/-- `Push16(pc); pc <- ea` (R161): the pc is already past the operand bytes. -/
def call (ea : Addr) (_m : Byte) (s : State) : Run Nat :=
  (push16 s.pc s).andThen fun extra s => .ok extra (s.setPc ea)

/-- `pc <- Pop16()`, with no adjustment (R162). -/
def returnFromCall (s : State) : Run Nat := (pop16 s).andThen fun target s => .ok 0 (s.setPc target)

/-- JMP Absolute, 0x4C (43_jumps_subroutines.md R160; 40_step_and_addressing.md R123). -/
def execJmpAbs (a16 : Addr) (s : State) : Outcome := withOperand (.absolute a16) jump s

/-- JMP AbsoluteIndirect, 0x6C (43_jumps_subroutines.md R160; 40_step_and_addressing.md R128). -/
def execJmpInd (a16 : Addr) (s : State) : Outcome := withOperand (.absoluteIndirect a16) jump s

/-- JSR Absolute, 0x20 (43_jumps_subroutines.md R161; 40_step_and_addressing.md R123). -/
def execJsr (a16 : Addr) (s : State) : Outcome := withOperand (.absolute a16) call s

/-- RTS Implied, 0x60 (43_jumps_subroutines.md R162; 40_step_and_addressing.md R118). -/
def execRts (s : State) : Outcome := withImplied returnFromCall s

end Sys2Proof.Machine
end

