-- ==== Sys2Proof/Machine/LoadStore.lean ====
section
/-! DEFINITION. LDA, LDX, STA, STX (spec/42_load_store.md R150 to R154). -/

namespace Sys2Proof.Machine

/-- `A <- m; SetNZ(m)` (R151). -/
def loadA (m : Byte) (s : State) : State := (s.setA m).setP (setNZ m s.p)

/-- `X <- m; SetNZ(m)` (R152). -/
def loadX (m : Byte) (s : State) : State := (s.setX m).setP (setNZ m s.p)

/-- `MemWrite(ea, 1, A)` (R153); the byte `Resolve` read is ignored. -/
def storeA (ea : Addr) (_m : Byte) (s : State) : Run Nat := memWrite ea s.a s

/-- `MemWrite(ea, 1, X)` (R154); the byte `Resolve` read is ignored. -/
def storeX (ea : Addr) (_m : Byte) (s : State) : Run Nat := memWrite ea s.x s

/-- LDA Immediate, 0xA9 (42_load_store.md R151; 40_step_and_addressing.md R119). -/
def execLdaImm (d8 : Byte) (s : State) : Outcome := withImmediate d8 loadA s

/-- LDA ZeroPage, 0xA5 (42_load_store.md R151; 40_step_and_addressing.md R120). -/
def execLdaZp (d8 : Byte) (s : State) : Outcome := withLoad (.zeroPage d8) loadA s

/-- LDA ZeroPageX, 0xB5 (42_load_store.md R151; 40_step_and_addressing.md R121). -/
def execLdaZpX (d8 : Byte) (s : State) : Outcome := withLoad (.zeroPageX d8) loadA s

/-- LDA Absolute, 0xAD (42_load_store.md R151; 40_step_and_addressing.md R123). -/
def execLdaAbs (a16 : Addr) (s : State) : Outcome := withLoad (.absolute a16) loadA s

/-- LDA AbsoluteX, 0xBD (42_load_store.md R151; 40_step_and_addressing.md R124). -/
def execLdaAbsX (a16 : Addr) (s : State) : Outcome := withLoad (.absoluteX a16) loadA s

/-- LDA AbsoluteY, 0xB9 (42_load_store.md R151; 40_step_and_addressing.md R125). -/
def execLdaAbsY (a16 : Addr) (s : State) : Outcome := withLoad (.absoluteY a16) loadA s

/-- LDA IndirectX, 0xA1 (42_load_store.md R151; 40_step_and_addressing.md R126). -/
def execLdaIndX (d8 : Byte) (s : State) : Outcome := withLoad (.indirectX d8) loadA s

/-- LDA IndirectY, 0xB1 (42_load_store.md R151; 40_step_and_addressing.md R127). -/
def execLdaIndY (d8 : Byte) (s : State) : Outcome := withLoad (.indirectY d8) loadA s

/-- LDX Immediate, 0xA2 (42_load_store.md R152; 40_step_and_addressing.md R119). -/
def execLdxImm (d8 : Byte) (s : State) : Outcome := withImmediate d8 loadX s

/-- LDX ZeroPage, 0xA6 (42_load_store.md R152; 40_step_and_addressing.md R120). -/
def execLdxZp (d8 : Byte) (s : State) : Outcome := withLoad (.zeroPage d8) loadX s

/-- LDX ZeroPageY, 0xB6 (42_load_store.md R152; 40_step_and_addressing.md R122). -/
def execLdxZpY (d8 : Byte) (s : State) : Outcome := withLoad (.zeroPageY d8) loadX s

/-- LDX Absolute, 0xAE (42_load_store.md R152; 40_step_and_addressing.md R123). -/
def execLdxAbs (a16 : Addr) (s : State) : Outcome := withLoad (.absolute a16) loadX s

/-- LDX AbsoluteY, 0xBE (42_load_store.md R152; 40_step_and_addressing.md R125). -/
def execLdxAbsY (a16 : Addr) (s : State) : Outcome := withLoad (.absoluteY a16) loadX s

/-- STA ZeroPage, 0x85 (42_load_store.md R153; 40_step_and_addressing.md R120). -/
def execStaZp (d8 : Byte) (s : State) : Outcome := withOperand (.zeroPage d8) storeA s

/-- STA ZeroPageX, 0x95 (42_load_store.md R153; 40_step_and_addressing.md R121). -/
def execStaZpX (d8 : Byte) (s : State) : Outcome := withOperand (.zeroPageX d8) storeA s

/-- STA Absolute, 0x8D (42_load_store.md R153; 40_step_and_addressing.md R123). -/
def execStaAbs (a16 : Addr) (s : State) : Outcome := withOperand (.absolute a16) storeA s

/-- STA AbsoluteX, 0x9D (42_load_store.md R153; 40_step_and_addressing.md R124). -/
def execStaAbsX (a16 : Addr) (s : State) : Outcome := withOperand (.absoluteX a16) storeA s

/-- STA AbsoluteY, 0x99 (42_load_store.md R153; 40_step_and_addressing.md R125). -/
def execStaAbsY (a16 : Addr) (s : State) : Outcome := withOperand (.absoluteY a16) storeA s

/-- STA IndirectX, 0x81 (42_load_store.md R153; 40_step_and_addressing.md R126). -/
def execStaIndX (d8 : Byte) (s : State) : Outcome := withOperand (.indirectX d8) storeA s

/-- STA IndirectY, 0x91 (42_load_store.md R153; 40_step_and_addressing.md R127). -/
def execStaIndY (d8 : Byte) (s : State) : Outcome := withOperand (.indirectY d8) storeA s

/-- STX ZeroPage, 0x86 (42_load_store.md R154; 40_step_and_addressing.md R120). -/
def execStxZp (d8 : Byte) (s : State) : Outcome := withOperand (.zeroPage d8) storeX s

/-- STX ZeroPageY, 0x96 (42_load_store.md R154; 40_step_and_addressing.md R122). -/
def execStxZpY (d8 : Byte) (s : State) : Outcome := withOperand (.zeroPageY d8) storeX s

/-- STX Absolute, 0x8E (42_load_store.md R154; 40_step_and_addressing.md R123). -/
def execStxAbs (a16 : Addr) (s : State) : Outcome := withOperand (.absolute a16) storeX s

end Sys2Proof.Machine
end

