-- ==== Sys2Proof/Machine/Dispatch.lean ====
section
/-! DEFINITION. One arm per constructor of `Instr`: the meaning of each instruction (spec/40_step_and_addressing.md
R112). -/

namespace Sys2Proof.Machine

def exec (i : Instr) (s : State) : Host.Outcome State Fault Refusal :=
  match i with
  | .adcImm d8 => Sys2Proof.Machine.execAdcImm d8 s
  | .adcZp d8 => Sys2Proof.Machine.execAdcZp d8 s
  | .adcZpX d8 => Sys2Proof.Machine.execAdcZpX d8 s
  | .adcAbs a16 => Sys2Proof.Machine.execAdcAbs a16 s
  | .adcAbsX a16 => Sys2Proof.Machine.execAdcAbsX a16 s
  | .adcAbsY a16 => Sys2Proof.Machine.execAdcAbsY a16 s
  | .adcIndX d8 => Sys2Proof.Machine.execAdcIndX d8 s
  | .adcIndY d8 => Sys2Proof.Machine.execAdcIndY d8 s
  | .bitZp d8 => Sys2Proof.Machine.execBitZp d8 s
  | .bitAbs a16 => Sys2Proof.Machine.execBitAbs a16 s
  | .ldaImm d8 => Sys2Proof.Machine.execLdaImm d8 s
  | .ldaZp d8 => Sys2Proof.Machine.execLdaZp d8 s
  | .ldaZpX d8 => Sys2Proof.Machine.execLdaZpX d8 s
  | .ldaAbs a16 => Sys2Proof.Machine.execLdaAbs a16 s
  | .ldaAbsX a16 => Sys2Proof.Machine.execLdaAbsX a16 s
  | .ldaAbsY a16 => Sys2Proof.Machine.execLdaAbsY a16 s
  | .ldaIndX d8 => Sys2Proof.Machine.execLdaIndX d8 s
  | .ldaIndY d8 => Sys2Proof.Machine.execLdaIndY d8 s
  | .ldxImm d8 => Sys2Proof.Machine.execLdxImm d8 s
  | .ldxZp d8 => Sys2Proof.Machine.execLdxZp d8 s
  | .ldxZpY d8 => Sys2Proof.Machine.execLdxZpY d8 s
  | .ldxAbs a16 => Sys2Proof.Machine.execLdxAbs a16 s
  | .ldxAbsY a16 => Sys2Proof.Machine.execLdxAbsY a16 s
  | .staZp d8 => Sys2Proof.Machine.execStaZp d8 s
  | .staZpX d8 => Sys2Proof.Machine.execStaZpX d8 s
  | .staAbs a16 => Sys2Proof.Machine.execStaAbs a16 s
  | .staAbsX a16 => Sys2Proof.Machine.execStaAbsX a16 s
  | .staAbsY a16 => Sys2Proof.Machine.execStaAbsY a16 s
  | .staIndX d8 => Sys2Proof.Machine.execStaIndX d8 s
  | .staIndY d8 => Sys2Proof.Machine.execStaIndY d8 s
  | .stxZp d8 => Sys2Proof.Machine.execStxZp d8 s
  | .stxZpY d8 => Sys2Proof.Machine.execStxZpY d8 s
  | .stxAbs a16 => Sys2Proof.Machine.execStxAbs a16 s
  | .jmpAbs a16 => Sys2Proof.Machine.execJmpAbs a16 s
  | .jmpInd a16 => Sys2Proof.Machine.execJmpInd a16 s
  | .jsr a16 => Sys2Proof.Machine.execJsr a16 s
  | .rts => Sys2Proof.Machine.execRts s
  | .brk => Sys2Proof.Machine.execBrk s
  | .rti => Sys2Proof.Machine.execRti s
  | .sec => Sys2Proof.Machine.execSec s
  | .clc => Sys2Proof.Machine.execClc s
  | .nop => Sys2Proof.Machine.execNop s
  | .bcs d8 => Sys2Proof.Machine.execBcs d8 s
  | .bcc d8 => Sys2Proof.Machine.execBcc d8 s
  | .beq d8 => Sys2Proof.Machine.execBeq d8 s
  | .bne d8 => Sys2Proof.Machine.execBne d8 s
  | .bvs d8 => Sys2Proof.Machine.execBvs d8 s
  | .bvc d8 => Sys2Proof.Machine.execBvc d8 s
  | .bpl d8 => Sys2Proof.Machine.execBpl d8 s

end Sys2Proof.Machine
end

