-- ==== Sys2Proof/Machine/Fetch.lean ====
section
/-! DEFINITION. Fetching an instruction through the bus (spec/40_step_and_addressing.md R110 to R112, R116). -/

namespace Sys2Proof.Machine

/-- The opcode byte at the pc, its look-up, and the operand bytes its format asks for, lower address first, each
an ordinary bus read that may raise (R111, R116). No operand byte is read for an opcode without an entry (R112).
The pc register still holds the opcode's address afterwards; the meaning moves it (log 28). -/
def fetch (s : State) : Run Instr :=
  (busRead s.pc s).andThen fun op s =>
    match opcodeShape op with
    | none => .stop (.raise (.unimplementedOpcode op)) s
    | some (.implied i) => .ok i s
    | some (.byte f) => (busRead (s.pc + 1#16) s).andThen fun d8 s => .ok (f d8) s
    | some (.word f) => (read16 (s.pc + 1#16) s).andThen fun a16 s => .ok (f a16) s

/-- The bytes `bs` stored at ascending addresses from `a` on, in the cells behind them. -/
def State.placeBytes : List Byte → Addr → State → State
  | [], _, s => s
  | b :: bs, a, s => State.placeBytes bs (a + 1#16) (s.setMem (s.mem.write (cellOf s.prgSize a) b))

/-- Whether storage stands behind the three bytes at `a`. -/
def storedThrough (a : Addr) : Bool :=
  (route a).stored && (route (a + 1#16)).stored && (route (a + 2#16)).stored

/-- `s` with the bytes `bs` where the next step fetches: at the pc; a machine whose pc has no storage behind it is
sent to 0x0000, and a halted machine is set running, since neither would fetch them. -/
def State.withInstructionBytes (bs : List Byte) (s : State) : State :=
  let at_ := if storedThrough s.pc then s.pc else 0x0000#16
  (State.placeBytes bs at_ (s.setPc at_)).setStatus .running

end Sys2Proof.Machine
end

