-- ==== Sys2Proof/Machine/Step.lean ====
section
/-! DEFINITION. One Step (spec/40_step_and_addressing.md R110). -/

namespace Sys2Proof.Machine

/-- One Step: only when the run status is running (R110); a halted machine stays as it is, with its error
(60_exceptions.md R205; log 13). -/
def step (s : State) : Host.Outcome State Fault Refusal :=
  match s.status with
  | .halted e => .fault (e.toFault s)
  | .running =>
    match fetch s with
    | .ok i s1 => exec i s1
    | .stop why s1 => stopped why s s1

/-- `s` with the table word `w` stored where `step` fetches its next instruction. -/
def State.withFetchWord (s : State) (nbits w : Nat) : State :=
  s.withInstructionBytes (tableBytes nbits w)

end Sys2Proof.Machine
end

