-- ==== Sys2Proof/Machine/Reset.lean ====
section
/-! DEFINITION. The host's Reset with a cartridge file (spec/70_reset_and_hazards.md R230 to R234), and the loader
as far as the spec gives it (R236 to R239). -/

namespace Sys2Proof.Machine

/-- The errors of the loader (60_exceptions.md R200, R206). -/
inductive LoadError where
  | emptyFile
  | invalidHeader
  | unsupportedFeature
  | truncatedFile
  deriving DecidableEq, Repr

/-- What the loader produces: the PRG image for the mapper, the CHR image for the facade (R238). -/
structure Cartridge where
  prg : List Byte
  chr : List Byte
  deriving DecidableEq, Repr

/-- The magic signature `N E S 0x1A` (R236). -/
def magic : List Byte := [0x4E#8, 0x45#8, 0x53#8, 0x1A#8]

/-- One byte of the header. -/
def headerByte (file : List Byte) (i : Nat) : Byte := file.getD i 0#8

/-- `header[4] * 16384` (R237). -/
def prgLength (file : List Byte) : Nat := (headerByte file 4).toNat * 16384

/-- `header[5] * 8192` (R237). -/
def chrLength (file : List Byte) : Nat := (headerByte file 5).toNat * 8192

/-- Byte 6 bit 5: a trainer region is declared (R236). -/
def hasTrainer (file : List Byte) : Bool := (headerByte file 6).getLsbD 5

/-- The Cartridge Loader (R236, R237). The mapper identifier and the header variant are ignored (R239); what the
spec leaves open of the error names is free (log 25). -/
def loadCartridge (file : List Byte) : Except LoadError Cartridge :=
  if file.length < 16 then
    .error (if Config.shortFileIsEmpty file.length then .emptyFile else .invalidHeader)
  else if file.take 4 ≠ magic then .error .invalidHeader
  else
    let short := decide (file.length < 16 + prgLength file + chrLength file)
    if hasTrainer file && (Config.trainerReportedFirst || !short) then .error .unsupportedFeature
    else if short then .error .truncatedFile
    else .ok { prg := (file.drop 16).take (prgLength file)
               chr := (file.drop (16 + prgLength file)).take (chrLength file) }

/-- The OPEN parameters of Reset (00_scope.md R7), with the spec's defaults. -/
structure ResetParams where
  sp : Byte := Config.resetSp
  cyc : Nat := Config.resetCyc
  pcOverride : Option Addr := none
  deriving DecidableEq, Repr

/-- Why a model refuses to launch: an image the core is not defined for (20_memory.md R64, D16), or a cycle
baseline of 0, which the spec excludes (10_state.md R36). -/
inductive LaunchRefusal where
  | prgImageLength (n : Nat)
  | zeroCycleBaseline
  deriving DecidableEq, Repr

/-- How a Reset ends. -/
inductive ResetResult where
  | ready (s : State)
  | failed (e : LoadError)
  | refused (r : LaunchRefusal)
  deriving DecidableEq, Repr

/-- The admitted image lengths (20_memory.md R64). -/
def prgSizeOf (n : Nat) : Option PrgSize :=
  if n = 0x4000 then some .half else if n = 0x8000 then some .full else none

/-- The cells whose contents a Reset leaves arbitrary: RAM, IO, CRAM (10_state.md R38 to R40). -/
def volatileCells : List Nat :=
  List.range 0x0800 ++ List.range' 0x4000 20 ++ List.range' 0x4015 12 ++ List.range' 0x6000 0x2000

/-- Each cell of the list takes the byte `f` gives it. -/
def Memory.fill : List Nat → (Nat → Byte) → Memory → Memory
  | [], _, m => m
  | k :: ks, f, m => (Memory.fill ks f m).write k (f k)

/-- The bytes of an image, from cell `base` on. -/
def Memory.placeImage : Nat → List Byte → Memory → Memory
  | _, [], m => m
  | base, b :: bs, m => (Memory.placeImage (base + 1) bs m).write base b

/-- The Bus at reset (R232): a fresh one over the image, its RAM, IO and CRAM holding arbitrary `contents`. -/
def launchMemory (prg : List Byte) (contents : Nat → Byte) : Memory :=
  Memory.fill volatileCells contents (Memory.placeImage 0x8000 prg [])

/-- The vector at `a`: low byte at `a`, high byte at `a + 1` (R231). -/
def State.vectorAt (a : Addr) (s : State) : Addr :=
  wordOf ((s.peek (a + 1#16)).getD 0#8) ((s.peek a).getD 0#8)

/-- The machine a Reset over an image of an admitted length leaves (R230, R231, 10_state.md R47). The facade is
not reset by the core (10_state.md R43): the record of `before` goes on. -/
def bootState (prg : List Byte) (size : PrgSize) (r : ResetParams) (contents : Nat → Byte) (before : State) :
    State :=
  let s : State :=
    { a := 0#8, x := 0#8, y := 0#8, pc := 0#16, sp := r.sp, p := Config.resetP, cyc := r.cyc,
      mem := launchMemory prg contents, prgSize := size, gfxLog := before.gfxLog, draws := before.draws,
      status := .running }
  s.setPc (r.pcOverride.getD (s.vectorAt resetVector))

/-- `Reset(cartridge_bytes, RESET_PC_OVERRIDE)` (R230), from any machine, running or halted (R233). -/
def hostReset (file : List Byte) (r : ResetParams) (contents : Nat → Byte) (before : State) : ResetResult :=
  match loadCartridge file with
  | .error e => .failed e
  | .ok cart =>
    match prgSizeOf cart.prg.length with
    | none => .refused (.prgImageLength cart.prg.length)
    | some size =>
      if r.cyc = 0 then .refused .zeroCycleBaseline
      else .ready (bootState cart.prg size r contents before)

end Sys2Proof.Machine
end

