-- ==== Sys2Proof/Safety.lean ====
section
/-! DEFINITION. What counts as a safe run (spec/70_reset_and_hazards.md R245, 60_exceptions.md R205), and the terms
statements about steps and instructions are written in. -/

namespace Sys2Proof.Machine

/-- A run of `n` steps that completes: no step raises and none is refused (R245). -/
def Completes (n : Nat) (s t : State) : Prop := Host.Core.run Sys2Proof.core n s = .next t

/-- The invariant of the stored bytes: the memory is in its canonical form, and only cells that exist are listed
(10_state.md R37, R39, R40, R41). -/
def State.wf (s : State) : Bool := s.mem.wf && s.mem.all fun c => isCell s.prgSize c.1

/-- A flag of a state (10_state.md R28). -/
abbrev State.flag (s : State) (f : Flag) : Bool := getFlag f s.p

/-- Every address reads the byte it read before. -/
def SameMemory (s t : State) : Prop := ∀ b : Addr, t.peek b = s.peek b

/-- Every address that reaches another cell than each of `stores` reads the byte it read before. -/
def SameMemoryOutside (stores : List Addr) (s t : State) : Prop :=
  ∀ b : Addr, (∀ a ∈ stores, cellOf s.prgSize b ≠ cellOf s.prgSize a) → t.peek b = s.peek b

/-- The addresses a write stores a byte at: RAM, the inert store, cartridge RAM (20_memory.md R52, R75). -/
abbrev StorageAddress (a : Addr) : Prop :=
  a.toNat < 0x2000 ∨ (0x4000 ≤ a.toNat ∧ a.toNat < 0x4021 ∧ a.toNat ≠ 0x4014) ∨
    (0x6000 ≤ a.toNat ∧ a.toNat < 0x8000)

/-- The 49 opcode bytes that have an entry, as the spec lists them (30_encoding.md R96, "By mnemonic"). -/
def registeredOpcodes : List Byte :=
  [0x69#8, 0x65#8, 0x75#8, 0x6D#8, 0x7D#8, 0x79#8, 0x61#8, 0x71#8] ++
  [0xA9#8, 0xA5#8, 0xB5#8, 0xAD#8, 0xBD#8, 0xB9#8, 0xA1#8, 0xB1#8] ++
  [0xA2#8, 0xA6#8, 0xB6#8, 0xAE#8, 0xBE#8] ++
  [0x85#8, 0x95#8, 0x8D#8, 0x9D#8, 0x99#8, 0x81#8, 0x91#8] ++
  [0x86#8, 0x96#8, 0x8E#8] ++ [0x4C#8, 0x6C#8] ++ [0x24#8, 0x2C#8] ++
  [0x20#8, 0x60#8, 0x00#8, 0x40#8, 0x38#8, 0x18#8, 0xEA#8] ++
  [0xB0#8, 0x90#8, 0xF0#8, 0xD0#8, 0x70#8, 0x50#8, 0x10#8]

/-- `t` is `s` but for what stands outside the core: accesses to the facade have been recorded after the old
ones, and free values have been drawn. -/
def OnlyExternal (s t : State) : Prop :=
  t = { s with gfxLog := t.gfxLog, draws := t.draws } ∧ s.gfxLog <+: t.gfxLog

/-- `Resolve` on the operand `o` of an instruction at `s` (40_step_and_addressing.md R114, R115): the effective
address is `ea`, the byte read there is `m`, and the machine is then `t`, its pc past the instruction. -/
def Resolves (o : EaMode) (s : State) (ea : Addr) (m : Byte) (t : State) : Prop :=
  ∃ s1, effectiveAddress o (s.advance o.length) = .ok ea s1 ∧ busRead ea s1 = .ok m t

/-- The forms of ADC that read memory, each with its operand (41_alu.md R140). -/
def adcForms (d8 : Byte) (a16 : Addr) : List (Instr × EaMode) :=
  [(.adcZp d8, .zeroPage d8), (.adcZpX d8, .zeroPageX d8), (.adcAbs a16, .absolute a16),
   (.adcAbsX a16, .absoluteX a16), (.adcAbsY a16, .absoluteY a16), (.adcIndX d8, .indirectX d8),
   (.adcIndY d8, .indirectY d8)]

/-- The forms of BIT (41_alu.md R141). -/
def bitForms (d8 : Byte) (a16 : Addr) : List (Instr × EaMode) :=
  [(.bitZp d8, .zeroPage d8), (.bitAbs a16, .absolute a16)]

/-- The forms of LDA that read memory (42_load_store.md R151). -/
def ldaForms (d8 : Byte) (a16 : Addr) : List (Instr × EaMode) :=
  [(.ldaZp d8, .zeroPage d8), (.ldaZpX d8, .zeroPageX d8), (.ldaAbs a16, .absolute a16),
   (.ldaAbsX a16, .absoluteX a16), (.ldaAbsY a16, .absoluteY a16), (.ldaIndX d8, .indirectX d8),
   (.ldaIndY d8, .indirectY d8)]

/-- The forms of LDX that read memory (42_load_store.md R152): the indexed forms use Y. -/
def ldxForms (d8 : Byte) (a16 : Addr) : List (Instr × EaMode) :=
  [(.ldxZp d8, .zeroPage d8), (.ldxZpY d8, .zeroPageY d8), (.ldxAbs a16, .absolute a16),
   (.ldxAbsY a16, .absoluteY a16)]

/-- The forms of STA (42_load_store.md R153). -/
def staForms (d8 : Byte) (a16 : Addr) : List (Instr × EaMode) :=
  [(.staZp d8, .zeroPage d8), (.staZpX d8, .zeroPageX d8), (.staAbs a16, .absolute a16),
   (.staAbsX a16, .absoluteX a16), (.staAbsY a16, .absoluteY a16), (.staIndX d8, .indirectX d8),
   (.staIndY d8, .indirectY d8)]

/-- The forms of STX (42_load_store.md R154). -/
def stxForms (d8 : Byte) (a16 : Addr) : List (Instr × EaMode) :=
  [(.stxZp d8, .zeroPage d8), (.stxZpY d8, .zeroPageY d8), (.stxAbs a16, .absolute a16)]

/-- The forms of JMP (43_jumps_subroutines.md R160). -/
def jmpForms (a16 : Addr) : List (Instr × EaMode) :=
  [(.jmpAbs a16, .absolute a16), (.jmpInd a16, .absoluteIndirect a16)]

/-- The seven branches, each with the flag it tests and the value that takes it (46_branches.md R191 to R197). -/
def branchForms (d8 : Byte) : List (Instr × Flag × Bool) :=
  [(.bcs d8, .carry, true), (.bcc d8, .carry, false), (.beq d8, .zero, true), (.bne d8, .zero, false),
   (.bvs d8, .overflow, true), (.bvc d8, .overflow, false), (.bpl d8, .negative, false)]

/-- The stores, each with its operand and the register byte it stores (42_load_store.md R153, R154). -/
def storeForms (d8 : Byte) (a16 : Addr) (s : State) : List (Instr × EaMode × Byte) :=
  (staForms d8 a16).map (fun f => (f.1, f.2, s.a)) ++ (stxForms d8 a16).map fun f => (f.1, f.2, s.x)

/-- Every instruction that has an effective address, with its operand: all but the Immediate and the Implied
ones (40_step_and_addressing.md R115). -/
def addressedForms (d8 : Byte) (a16 : Addr) : List (Instr × EaMode) :=
  adcForms d8 a16 ++ bitForms d8 a16 ++ ldaForms d8 a16 ++ ldxForms d8 a16 ++ staForms d8 a16 ++
    stxForms d8 a16 ++ jmpForms a16 ++ [(.jsr a16, .absolute a16)] ++
    (branchForms d8).map fun f => (f.1, .relative d8)

/-- The stack slot a stack pointer names, as the spec counts it: `0x0100 + s` (10_state.md R30). -/
def slot (sp : Byte) : Addr := BitVec.ofNat 16 (0x0100 + sp.toNat)

/-- What ADC does to A and P, given the operand `m` (41_alu.md R140): from the machine `s` to the machine `t`. -/
def AdcEffect (s t : State) (m : Byte) : Prop :=
  let sum := s.a.toNat + m.toNat + (s.flag .carry).toNat
  t.a.toNat = sum % 256 ∧ t.flag .carry = decide (255 < sum) ∧
  t.flag .overflow = decide (s.a.toNat < 128 ∧ m.toNat < 128 ∧ 128 ≤ t.a.toNat) ∧
  t.flag .zero = decide (t.a = 0#8) ∧ t.flag .negative = decide (128 ≤ t.a.toNat) ∧
  ∀ f ∈ [Flag.interruptDisable, .decimal, .brk, .unused], t.flag f = s.flag f

/-- Z and N describe the byte `v`, and no other flag has changed (42_load_store.md R150). -/
def LoadFlags (s t : State) (v : Byte) : Prop :=
  t.flag .zero = decide (v = 0#8) ∧ t.flag .negative = decide (128 ≤ v.toNat) ∧
  ∀ f ∈ [Flag.carry, .interruptDisable, .decimal, .brk, .unused, .overflow], t.flag f = s.flag f

end Sys2Proof.Machine
end

