-- ==== Sys2Proof/Certificates/Slice0/Obligations.lean ====
section
/-! DEFINITION. The statements about the machine, for the provers. Each docstring names the rules of spec/ it rests
on; where a clause rests on a choice of the spec's (D<n>) or of the model's (log <n>), it says so. -/

open Sys2Proof Sys2Proof.Machine

/-! ### Encoding -/

/-- Decoding what is encoded gives the instruction back, with every operand at every value (30_encoding.md R90 to
R94, R98; the opcode bytes are the spec's choice D6, log 14). -/
def Obligations.DecodeUndoesEncode : Prop :=
  ∀ (i : Instr) (rest : List Byte), decode (encode i ++ rest) = .ok (i, rest)

/-- What decodes is the encoding of what it decodes to: each byte sequence has one meaning (30_encoding.md R94,
R95; D6, log 14). -/
def Obligations.DecodedBytesAreTheEncoding : Prop :=
  ∀ (bytes : List Byte) (i : Instr) (rest : List Byte),
    decode bytes = .ok (i, rest) → bytes = encode i ++ rest

/-- Words written out from the spec's encodings decode to the instructions they stand for (30_encoding.md R91, R96,
R99; D6, log 14). -/
def Obligations.SpecWordsDecode : Prop :=
  decode [0xA9, 0x10] = .ok (.ldaImm 0x10, []) ∧ decode [0xB6, 0x10] = .ok (.ldxZpY 0x10, []) ∧
  decode [0x9D, 0x34, 0x12] = .ok (.staAbsX 0x1234, []) ∧ decode [0x6C, 0x34, 0x12] = .ok (.jmpInd 0x1234, []) ∧
  decode [0x61, 0x20] = .ok (.adcIndX 0x20, []) ∧ decode [0x24, 0x10] = .ok (.bitZp 0x10, []) ∧
  decode [0xD0, 0xF0] = .ok (.bne 0xF0, []) ∧ decode [0x60] = .ok (.rts, []) ∧ decode [0x00] = .ok (.brk, [])

/-- The opcode bytes that decode are the 49 the spec registers, and the Instruction Table registers each once, for
a mnemonic that takes its mode (30_encoding.md R95 to R97; D6, log 14). -/
def Obligations.RegisteredOpcodesAreTheSpecs : Prop :=
  (∀ op : Byte, (opcodeShape op).isSome = true ↔ op ∈ registeredOpcodes) ∧
  (∀ op : Byte, op ∈ instructionTable.map Descriptor.opcode ↔ op ∈ registeredOpcodes) ∧
  wellFormedTable instructionTable = true

/-! ### The step -/

/-- A step runs the instruction whose bytes it fetches: `n` ordinary bus reads from the pc on, wherever the pc
points, then `exec` (40_step_and_addressing.md R110, R111, R116; that the instruction moves the pc is log 28). -/
def Obligations.StepRunsTheFetchedInstruction : Prop :=
  ∀ (s t : State) (n : Nat) (bytes : List Byte) (i : Instr), s.status = .running →
    readRun n s.pc s = .ok bytes t → decode bytes = .ok (i, []) → step s = exec i t

/-- When the stored bytes at the pc decode to an instruction, the step is exactly that instruction's
(40_step_and_addressing.md R110; 20_memory.md R74: the bytes are those stored at this moment). -/
def Obligations.StepRunsTheStoredInstruction : Prop :=
  ∀ (s : State) (bytes : List Byte) (i : Instr), s.status = .running →
    (∀ (j : Nat) (h : j < bytes.length), s.peek (s.pc + BitVec.ofNat 16 j) = some bytes[j]) →
    decode bytes = .ok (i, []) → step s = exec i s

/-- An opcode byte without an entry halts the machine, with the registers of the step's start; no operand byte is read
(60_exceptions.md R201, 40_step_and_addressing.md R112, 30_encoding.md R97). Which bytes have an entry is the spec's
choice D6, log 14; that the error carries the opcode D26, log 31; that the facade access of the opcode fetch stands in
the record D22, log 29. -/
def Obligations.UnregisteredOpcodeHalts : Prop :=
  ∀ (s t : State) (op : Byte), s.status = .running → busRead s.pc s = .ok op t → op ∉ registeredOpcodes →
    step s = .fault (.unimplementedOpcode op
      { s with gfxLog := t.gfxLog, draws := t.draws, status := .halted (.unimplementedOpcode op) })

/-- A fetch that raises halts the machine: the opcode read, the read of the first operand byte of a registered opcode
that has one, the read of the second. The error is that of the read, the registers and stored bytes are those of the
step's start, nothing is executed (40_step_and_addressing.md R111, R116, 60_exceptions.md R202 to R204). When a read
raises is BusReadRoutes. The registered bytes are the spec's choice D6, log 14; the wrap of the addresses D5, log 18;
that the facade accesses of the fetch stand in the record D22, log 29. -/
def Obligations.UnreadableFetchHalts : Prop :=
  ∀ (s t : State) (e : RuntimeError), s.status = .running →
    let halted : Outcome :=
      .fault (e.toFault { s with gfxLog := t.gfxLog, draws := t.draws, status := .halted e })
    (busRead s.pc s = .stop (.raise e) t → step s = halted) ∧
    ∀ d ∈ instructionTable, ∀ u : State, busRead s.pc s = .ok d.opcode u →
      (1 ≤ d.mode.operandBytes →
        busRead (BitVec.ofNat 16 (s.pc.toNat + 1)) u = .stop (.raise e) t → step s = halted) ∧
      (d.mode.operandBytes = 2 → ∀ (lo : Byte) (v : State),
        busRead (BitVec.ofNat 16 (s.pc.toNat + 1)) u = .ok lo v →
        busRead (BitVec.ofNat 16 (s.pc.toNat + 2)) v = .stop (.raise e) t → step s = halted)

/-- A halted machine takes no step: it stays as it is, with its error (10_state.md R45, 60_exceptions.md R205; that
it answers the same fault again is the model's choice, log 13). -/
def Obligations.HaltedMachineTakesNoStep : Prop :=
  ∀ (s : State) (e : RuntimeError), s.status = .halted e → step s = .fault (e.toFault s)

/-- An error leaves the registers and the stored bytes as at the failing step's start, the machine halted, and every
facade access of the earlier steps in the record (60_exceptions.md R204, R205; 00_scope.md R12; what "CPU state"
covers is the spec's choice D22, log 29). Which accesses of the failing step itself stand is said where each read or
write raises: UnreadableFetchHalts, UnregisteredOpcodeHalts, UnreadablePointerHalts, UnreadableOperandHalts,
StoresToGraphics, StoresToTheBulkTrigger. -/
def Obligations.ErrorKeepsRegistersAndMemory : Prop :=
  ∀ (s : State) (f : Fault), s.status = .running → step s = .fault f →
    f.post = { s with gfxLog := f.post.gfxLog, draws := f.post.draws, status := .halted f.error } ∧
    s.gfxLog <+: f.post.gfxLog

/-- Each error has the cause the spec gives it: an opcode without an entry; an address of the hole; a facade access
that failed, recorded last (60_exceptions.md R201 to R203). The registered bytes are the spec's choice D6, log 14; what
raises InvalidRegisterAccess D19, log 10, and that the failing access is recorded the model's, log 10; that the record
stands after the error D22, log 29; that the hole begins at 0x4021 and not at 0x4020 D18, log 23; that the errors carry
the opcode and the address D26, log 31. -/
def Obligations.ErrorsHaveTheSpecsCauses : Prop :=
  ∀ (s : State) (f : Fault), s.status = .running → step s = .fault f →
    (∀ op, f.error = .unimplementedOpcode op → op ∉ registeredOpcodes) ∧
    (∀ a, f.error = .invalidBusAddress a → 0x4021 ≤ a.toNat ∧ a.toNat < 0x6000) ∧
    (f.error = .invalidRegisterAccess →
      (∃ r, f.post.gfxLog.getLast? = some (.read r .invalidRegisterAccess)) ∨
        ∃ r v, f.post.gfxLog.getLast? = some (.write r v false))

/-- The model refuses no step but a write into the image window (20_memory.md R65, D15, log 12). -/
def Obligations.OnlyImageWritesAreRefused : Prop :=
  ∀ (s : State) (r : Refusal), step s = .refused r → ∃ a : Addr, r = .prgRomWrite a ∧ 0x8000 ≤ a.toNat

/-! ### Invariants and whole-machine rules -/

/-- Every step keeps the canonical form of the memory, and lists only cells that exist (10_state.md R37, R39, R40,
R41; the extent of IO is the spec's choice D18, log 23; the canonical form is the model's, log 2). -/
def Obligations.StepKeepsTheMemoryForm : Prop :=
  ∀ s t : State, s.wf = true → step s = .next t → t.wf = true

/-- The machine right after reset: the values the spec states, the defaults of its OPEN parameters (SP log 4, cycle
count log 5), the pc from the reset vector, which the blank image gives (log 3), and the two invariants
(10_state.md R47). -/
def Obligations.ResetMachine : Prop :=
  State.reset.a = 0x00 ∧ State.reset.x = 0x00 ∧ State.reset.y = 0x00 ∧ State.reset.p = 0x24 ∧
  State.reset.sp = 0xFD ∧ State.reset.cyc = 7 ∧ State.reset.status = .running ∧
  State.reset.pc = State.reset.vectorAt 0xFFFC ∧ State.reset.wf = true ∧ State.reset.flag .brk = false

/-- No step changes a byte of the image window (10_state.md R41, 20_memory.md R65). -/
def Obligations.StepNeverChangesTheImage : Prop :=
  ∀ s t : State, step s = .next t →
    t.prgSize = s.prgSize ∧ ∀ a : Addr, 0x8000 ≤ a.toNat → t.peek a = s.peek a

/-- Break, once clear in P, stays clear (10_state.md R46: no rule ever sets B in P itself). -/
def Obligations.BreakFlagStaysClear : Prop :=
  ∀ s t : State, s.flag .brk = false → step s = .next t → t.flag .brk = false

/-- What no instruction writes: no step changes Y (10_state.md R22); a machine whose step completes is still running
(R45); no facade access once made is taken back or changed (20_memory.md R59, R60, R73). -/
def Obligations.StepKeepsWhatNothingWrites : Prop :=
  ∀ s t : State, step s = .next t → t.y = s.y ∧ t.status = .running ∧ s.gfxLog <+: t.gfxLog

/-- Each flag is written only by the instructions the spec lists for it (10_state.md R46). -/
def Obligations.FlagsWrittenOnlyByTheirWriters : Prop :=
  ∀ (i : Instr) (s t : State), exec i s = .next t →
    (i.mnemonic ∉ [.adc, .sec, .clc, .rti] → t.flag .carry = s.flag .carry) ∧
    (i.mnemonic ∉ [.adc, .lda, .ldx, .bit, .rti] → t.flag .zero = s.flag .zero) ∧
    (i.mnemonic ∉ [.brk, .rti] → t.flag .interruptDisable = s.flag .interruptDisable) ∧
    (i.mnemonic ≠ .rti → t.flag .decimal = s.flag .decimal ∧ t.flag .brk = s.flag .brk ∧
      t.flag .unused = s.flag .unused) ∧
    (i.mnemonic ∉ [.adc, .bit, .rti] → t.flag .overflow = s.flag .overflow) ∧
    (i.mnemonic ∉ [.adc, .lda, .ldx, .bit, .rti] → t.flag .negative = s.flag .negative) ∧
    (i.mnemonic ∉ [.adc, .bit, .lda, .ldx, .brk, .rti, .sec, .clc] → t.p = s.p)

/-- Each register is written only by the instructions the spec lists for it (10_state.md R20, R21, R22, R25). -/
def Obligations.RegistersWrittenOnlyByTheirWriters : Prop :=
  ∀ (i : Instr) (s t : State), exec i s = .next t →
    (i.mnemonic ∉ [.adc, .lda] → t.a = s.a) ∧ (i.mnemonic ≠ .ldx → t.x = s.x) ∧ t.y = s.y ∧
    (i.mnemonic ∉ [.jsr, .rts, .brk, .rti] → t.sp = s.sp) ∧
    (i.mnemonic ∉ [.jmp, .jsr, .rts, .brk, .rti, .bcs, .bcc, .beq, .bne, .bvs, .bvc, .bpl] →
      t.pc = s.pc + BitVec.ofNat 16 i.length)

/-- Every completed step costs STEP_CYCLES, the same for all, and beyond that 513 or 514 by the parity of the count
at its start, or nothing (40_step_and_addressing.md R113, 70_reset_and_hazards.md R260, R261, 10_state.md R36; that
the driver's amount is added inside the step is the spec's choice D12, log 22). -/
def Obligations.CycleCounterAdvances : Prop :=
  ∀ s t : State, step s = .next t →
    ∃ extra : Nat, t.cyc = s.cyc + Config.stepCycles + extra ∧ (extra = 0 ∨ extra = 513 + s.cyc % 2)

/-! ### The bus -/

/-- `Read(a)` by range (20_memory.md R51, R54, R55, R57, R59, R61, R63, R64, R66). The read of 0x4014 is the spec's
choice D14, log 11; the extent of the inert store D18, log 23; that the facade may fail a read D19, log 10, and that
the failing read is recorded the model's, log 10; that the error carries the address D26, log 31. -/
def Obligations.BusReadRoutes : Prop :=
  ∀ (a : Addr) (s : State),
    (a.toNat < 0x2000 → busRead a s = .ok (s.mem.read (a.toNat % 0x0800)) s) ∧
    (0x2000 ≤ a.toNat → a.toNat < 0x4000 →
      (∀ b, Config.gfxRead s.gfxLog (BitVec.ofNat 3 (a.toNat % 8)) = .byte b →
        busRead a s = .ok b
          { s with gfxLog := s.gfxLog ++ [.read (BitVec.ofNat 3 (a.toNat % 8)) (.byte b)] }) ∧
      (Config.gfxRead s.gfxLog (BitVec.ofNat 3 (a.toNat % 8)) = .invalidRegisterAccess →
        busRead a s = .stop (.raise .invalidRegisterAccess)
          { s with gfxLog := s.gfxLog ++ [.read (BitVec.ofNat 3 (a.toNat % 8)) .invalidRegisterAccess] })) ∧
    (a.toNat = 0x4014 → busRead a s = .ok (Config.portByte s.draws) { s with draws := s.draws + 1 }) ∧
    (0x4000 ≤ a.toNat → a.toNat ≤ 0x4020 → a.toNat ≠ 0x4014 → busRead a s = .ok (s.mem.read a.toNat) s) ∧
    (0x4021 ≤ a.toNat → a.toNat ≤ 0x5FFF → busRead a s = .stop (.raise (.invalidBusAddress a)) s) ∧
    (0x6000 ≤ a.toNat → a.toNat ≤ 0x7FFF → busRead a s = .ok (s.mem.read a.toNat) s) ∧
    (0x8000 ≤ a.toNat → busRead a s = .ok (s.mem.read (0x8000 + (a.toNat - 0x8000) % s.prgSize.bytes)) s)

/-- `Write(a, v, c)` by range (20_memory.md R52, R54, R57, R60, R61, R65, R66, R67); the bulk transfer has its own
statements. The refusal in the image window is the spec's choice D15, log 12; the zero of the extra cycles D30, log 32;
the extent of the inert store D18, log 23; that the facade may fail a write D19, log 10, and that the failing write is
recorded the model's, log 10; that the error carries the address D26, log 31. -/
def Obligations.BusWriteRoutes : Prop :=
  ∀ (a : Addr) (v : Byte) (c : Nat) (s : State),
    (a.toNat < 0x2000 → busWrite a v c s = .ok 0 { s with mem := s.mem.write (a.toNat % 0x0800) v }) ∧
    (0x2000 ≤ a.toNat → a.toNat < 0x4000 →
      (Config.gfxWriteAccepted s.gfxLog (BitVec.ofNat 3 (a.toNat % 8)) v = true →
        busWrite a v c s =
          .ok 0 { s with gfxLog := s.gfxLog ++ [.write (BitVec.ofNat 3 (a.toNat % 8)) v true] }) ∧
      (Config.gfxWriteAccepted s.gfxLog (BitVec.ofNat 3 (a.toNat % 8)) v = false →
        busWrite a v c s = .stop (.raise .invalidRegisterAccess)
          { s with gfxLog := s.gfxLog ++ [.write (BitVec.ofNat 3 (a.toNat % 8)) v false] })) ∧
    (0x4000 ≤ a.toNat → a.toNat ≤ 0x4020 → a.toNat ≠ 0x4014 →
      busWrite a v c s = .ok 0 { s with mem := s.mem.write a.toNat v }) ∧
    (0x4021 ≤ a.toNat → a.toNat ≤ 0x5FFF → busWrite a v c s = .stop (.raise (.invalidBusAddress a)) s) ∧
    (0x6000 ≤ a.toNat → a.toNat ≤ 0x7FFF →
      busWrite a v c s = .ok 0 { s with mem := s.mem.write a.toNat v }) ∧
    (0x8000 ≤ a.toNat → busWrite a v c s = .stop (.refuse (.prgRomWrite a)) s)

/-- The RAM window (20_memory.md R54): a read answers the byte at the index `a mod 0x0800`, and changes nothing; a
byte written is read at all four mirrors, costs no extra cycle, and changes nothing else at any other address; neither
raises. The memory is in its canonical form, the invariant of `StepKeepsTheMemoryForm`. -/
def Obligations.RamIsMirrored : Prop :=
  ∀ (a : Addr) (v : Byte) (c : Nat) (s : State), s.wf = true → a.toNat < 0x2000 →
    busRead a s = .ok (s.mem.read (a.toNat % 0x0800)) s ∧
    ∃ t, busWrite a v c s = .ok 0 t ∧ t = { s with mem := t.mem } ∧
      (∀ b : Addr, b.toNat < 0x2000 → b.toNat % 0x0800 = a.toNat % 0x0800 → busRead b t = .ok v t) ∧
      (∀ b : Addr, ¬(b.toNat < 0x2000 ∧ b.toNat % 0x0800 = a.toNat % 0x0800) → t.peek b = s.peek b)

/-- A half-size image is mirrored across both halves of its window; a full-size image fills it directly
(20_memory.md R64). -/
def Obligations.ImageFillsItsWindow : Prop :=
  ∀ (s : State) (k : Nat),
    (s.prgSize = .half → k < 0x4000 →
      s.peek (BitVec.ofNat 16 (0x8000 + k)) = some (s.mem.read (0x8000 + k)) ∧
      s.peek (BitVec.ofNat 16 (0xC000 + k)) = some (s.mem.read (0x8000 + k))) ∧
    (s.prgSize = .full → k < 0x8000 →
      s.peek (BitVec.ofNat 16 (0x8000 + k)) = some (s.mem.read (0x8000 + k)))

/-- `Read16(a)` composes two reads, little-endian, the second at `a + 1` with a full 16-bit carry (20_memory.md R53,
R69; the order and the wrap at 0xFFFF are the spec's choices D21, D5, log 21, log 18). -/
def Obligations.Read16IsLittleEndian : Prop :=
  ∀ (a : Addr) (s s1 s2 : State) (lo hi : Byte),
    busRead a s = .ok lo s1 → busRead (BitVec.ofNat 16 (a.toNat + 1)) s1 = .ok hi s2 →
    ∃ w : Addr, read16 a s = .ok w s2 ∧ w.toNat = hi.toNat * 256 + lo.toNat

/-- The bulk transfer from a page of storage: the 256 bytes of the page, ascending, in one load of the facade; 513
extra cycles, 514 if the cycle count is odd; no register and no stored byte changes (20_memory.md R62, R77; the
order is the spec's choice D20, log 21). -/
def Obligations.BulkTransferCopiesThePage : Prop :=
  ∀ (v : Byte) (c : Nat) (s : State), (∀ i : Byte, (route (wordOf v i)).stored = true) →
    busWrite 0x4014#16 v c s = .ok (513 + c % 2) { s with gfxLog := s.gfxLog ++ [.bulkLoad
      ((List.range 256).map fun i => (s.peek (BitVec.ofNat 16 (v.toNat * 256 + i))).getD 0#8)] }

/-- A bulk transfer from the hole raises at its first unmapped byte and loads nothing; page 0x40 is read up to
0x4020, the byte at 0x4014 a free value (20_memory.md R77, 70_reset_and_hazards.md R257). The order, and that nothing
is loaded, are the spec's choice D20, log 21; that 0x4014 answers a free value D14, drawn once by the model's own
counter, log 11; that 0x4020 is still read D18, log 23; that the error carries the address D26, log 31. -/
def Obligations.BulkTransferFromTheHoleRaises : Prop :=
  ∀ (v : Byte) (c : Nat) (s : State),
    (0x41 ≤ v.toNat → v.toNat ≤ 0x5F →
      busWrite 0x4014#16 v c s = .stop (.raise (.invalidBusAddress (BitVec.ofNat 16 (v.toNat * 256)))) s) ∧
    (v = 0x40#8 → busWrite 0x4014#16 v c s =
      .stop (.raise (.invalidBusAddress 0x4021#16)) { s with draws := s.draws + 1 })

/-! ### The stack and the flags -/

/-- Push16 then Pop16 gives the value back and restores SP, from every SP; Push then Pop likewise (10_state.md R35);
the memory is in its canonical form, the invariant of `StepKeepsTheMemoryForm`. -/
def Obligations.StackRoundTrip : Prop :=
  ∀ (s : State) (w : Addr) (b : Byte), s.wf = true →
    (∃ t u, push16 w s = .ok 0 t ∧ pop16 t = .ok w u ∧ u.sp = s.sp) ∧
    ∃ t u, push b s = .ok 0 t ∧ pop t = .ok b u ∧ u.sp = s.sp

/-- Push stores its byte in the slot SP names and moves SP down by one (10_state.md R31); Push16 leaves the low byte
at the higher slot and the high byte in the slot below it, and moves SP down by two (R33). Nothing else changes, and
every SP is allowed, the wrap included; the memory is in its canonical form (`StepKeepsTheMemoryForm`). -/
def Obligations.PushStoresAndDecrements : Prop :=
  ∀ (s : State) (b : Byte) (w : Addr), s.wf = true →
    (∃ t, push b s = .ok 0 t ∧ t.peek (slot s.sp) = some b ∧ SameMemoryOutside [slot s.sp] s t ∧
      t = { s with mem := t.mem, sp := s.sp - 1#8 }) ∧
    ∃ t, push16 w s = .ok 0 t ∧ t.peek (slot s.sp) = some (lo8 w) ∧
      t.peek (slot (s.sp - 1#8)) = some (hi8 w) ∧
      SameMemoryOutside [slot s.sp, slot (s.sp - 1#8)] s t ∧ t = { s with mem := t.mem, sp := s.sp - 2#8 }

/-- Pop moves SP up by one and reads the slot it then names (10_state.md R32); Pop16 reads the high byte there and the
low byte in the slot after it, and moves SP up by two (R34). Memory does not change, and every SP is allowed. -/
def Obligations.PopIncrementsAndReads : Prop :=
  ∀ (s : State) (hi lo : Byte), s.peek (slot (s.sp + 1#8)) = some hi → s.peek (slot (s.sp + 2#8)) = some lo →
    pop s = .ok hi { s with sp := s.sp + 1#8 } ∧ pop16 s = .ok (wordOf hi lo) { s with sp := s.sp + 2#8 }

/-- GetFlag reads the flag's bit of P (10_state.md R28), SetFlag sets or clears that bit and leaves all others (R29);
the bit positions are those of R27. -/
def Obligations.SetFlagChangesOneBit : Prop :=
  ∀ (p : Byte) (b : Bool), ∀ f ∈ [(Flag.carry, 0), (.zero, 1), (.interruptDisable, 2), (.decimal, 3), (.brk, 4),
      (.unused, 5), (.overflow, 6), (.negative, 7)],
    getFlag f.1 p = p.getLsbD f.2 ∧
      ∀ j : Nat, j < 8 → (setFlag f.1 b p).getLsbD j = if j = f.2 then b else p.getLsbD j

/-! ### The resolver -/

/-- The effective address of each mode that reads no pointer (40_step_and_addressing.md R117, R120 to R125, R129);
the modulus 255 is the spec's choice D1, log 16, the wrap at 0xFFFF D5, log 18. -/
def Obligations.DirectEffectiveAddresses : Prop :=
  ∀ (d8 : Byte) (a16 : Addr) (s : State),
    effectiveAddress (.zeroPage d8) s = .ok (BitVec.ofNat 16 d8.toNat) s ∧
    effectiveAddress (.zeroPageX d8) s = .ok (BitVec.ofNat 16 ((d8.toNat + s.x.toNat) % 255)) s ∧
    effectiveAddress (.zeroPageY d8) s = .ok (BitVec.ofNat 16 ((d8.toNat + s.y.toNat) % 255)) s ∧
    effectiveAddress (.absolute a16) s = .ok a16 s ∧
    effectiveAddress (.absoluteX a16) s = .ok (BitVec.ofNat 16 (a16.toNat + s.x.toNat)) s ∧
    effectiveAddress (.absoluteY a16) s = .ok (BitVec.ofNat 16 (a16.toNat + s.y.toNat)) s ∧
    effectiveAddress (.relative d8) s = .ok (BitVec.ofInt 16 (s.pc.toNat + d8.toInt)) s

/-- The effective address of each mode that reads a pointer: low byte first, no wrap inside a page, the index Y
added after the pointer is read (40_step_and_addressing.md R126 to R128); the modulus of IndirectX is the spec's
choice D2, log 16, the missing page quirk D4, log 19, the wrap at 0xFFFF D5, log 18, that the low byte is read before
the high byte D21, log 21. -/
def Obligations.IndirectEffectiveAddresses : Prop :=
  (∀ (d8 lo hi : Byte) (s : State),
    s.peek (BitVec.ofNat 16 ((d8.toNat + s.x.toNat) % 255)) = some lo →
    s.peek (BitVec.ofNat 16 ((d8.toNat + s.x.toNat) % 255 + 1)) = some hi →
    effectiveAddress (.indirectX d8) s = .ok (BitVec.ofNat 16 (hi.toNat * 256 + lo.toNat)) s) ∧
  (∀ (d8 lo hi : Byte) (s : State),
    s.peek (BitVec.ofNat 16 d8.toNat) = some lo → s.peek (BitVec.ofNat 16 (d8.toNat + 1)) = some hi →
    effectiveAddress (.indirectY d8) s =
      .ok (BitVec.ofNat 16 (hi.toNat * 256 + lo.toNat + s.y.toNat)) s) ∧
  ∀ (a16 : Addr) (lo hi : Byte) (s s1 s2 : State),
    busRead a16 s = .ok lo s1 → busRead (BitVec.ofNat 16 (a16.toNat + 1)) s1 = .ok hi s2 →
    effectiveAddress (.absoluteIndirect a16) s = .ok (BitVec.ofNat 16 (hi.toNat * 256 + lo.toNat)) s2

/-- Resolve completes wherever the byte at the effective address can be read: where storage stands, with the byte
stored there and nothing more changed; at 0x4014, with the free value (D14, log 11); in the graphics window, with
what the facade answers, that one read recorded. Computing the address changes nothing of the core either
(40_step_and_addressing.md R114, R115; 20_memory.md R59, R63). That storage stands at 0x4020 is the spec's choice D18,
log 23. -/
def Obligations.ReadableOperandsResolve : Prop :=
  ∀ (o : EaMode) (s u : State) (ea : Addr), effectiveAddress o (s.advance o.length) = .ok ea u →
    OnlyExternal (s.advance o.length) u ∧
    (∀ m, s.peek ea = some m → Resolves o s ea m u) ∧
    (ea = 0x4014#16 → Resolves o s ea (Config.portByte u.draws) { u with draws := u.draws + 1 }) ∧
    (0x2000 ≤ ea.toNat → ea.toNat < 0x4000 → ∀ m,
      Config.gfxRead u.gfxLog (BitVec.ofNat 3 (ea.toNat % 8)) = .byte m →
      Resolves o s ea m { u with gfxLog := u.gfxLog ++ [.read (BitVec.ofNat 3 (ea.toNat % 8)) (.byte m)] })

/-- Every instruction whose effective address is computed but whose byte there cannot be read halts the machine,
whatever it would do with it: a store before it stores, a jump in itself, a branch taken or not. In the hole it is
InvalidBusAddress; in the graphics window, where the facade fails, InvalidRegisterAccess. Registers and stored bytes
are as at the step's start (40_step_and_addressing.md R115, 60_exceptions.md R202, R203, R209). The read for stores and
transfers is the spec's choice D24, log 20; the failing facade D19, log 10; that the facade accesses made before the
raise stand, the failing one among them, D22, log 29, and log 10; that the error carries the address D26, log 31.
A pointer that cannot be read is UnreadablePointerHalts. -/
def Obligations.UnreadableOperandHalts : Prop :=
  ∀ (d8 : Byte) (a16 : Addr), ∀ f ∈ addressedForms d8 a16, ∀ (s u : State) (ea : Addr),
    effectiveAddress f.2 (s.advance f.2.length) = .ok ea u →
    (0x4021 ≤ ea.toNat → ea.toNat ≤ 0x5FFF → exec f.1 s = .fault (.invalidBusAddress ea
      { s with gfxLog := u.gfxLog, draws := u.draws, status := .halted (.invalidBusAddress ea) })) ∧
    (0x2000 ≤ ea.toNat → ea.toNat < 0x4000 →
      Config.gfxRead u.gfxLog (BitVec.ofNat 3 (ea.toNat % 8)) = .invalidRegisterAccess →
      exec f.1 s = .fault (.invalidRegisterAccess { s with
        gfxLog := u.gfxLog ++ [.read (BitVec.ofNat 3 (ea.toNat % 8)) .invalidRegisterAccess],
        draws := u.draws, status := .halted .invalidRegisterAccess }))

/-- A pointer byte that cannot be read halts the machine: JMP AbsoluteIndirect ends in the error of the first of its
two pointer reads that raises, registers and stored bytes as at the step's start, among them a pointer in the hole and
one whose second byte lies at the hole's first address. No other mode can raise while it computes its address, since
its pointer, if it has one, stands in RAM (40_step_and_addressing.md R126 to R128, R130, 60_exceptions.md R202 to
R204). When a read raises is BusReadRoutes. The place of the high byte is the spec's choice D4, log 19, and D5, log 18;
the order D21, log 21; that the facade accesses made before the raise stand D22, log 29; that 0x4020 can be read, so
that a pointer there raises at 0x4021 only, D18, log 23, unsafe; that the error carries the address D26, log 31. -/
def Obligations.UnreadablePointerHalts : Prop :=
  (∀ (o : EaMode) (s u : State) (why : Stop), effectiveAddress o s = .stop why u →
    ∃ a16, o = .absoluteIndirect a16) ∧
  ∀ (a16 : Addr) (s t : State) (e : RuntimeError),
    let halted : Outcome :=
      .fault (e.toFault { s with gfxLog := t.gfxLog, draws := t.draws, status := .halted e })
    (busRead a16 (s.advance 3) = .stop (.raise e) t → exec (.jmpInd a16) s = halted) ∧
    (∀ (lo : Byte) (u : State), busRead a16 (s.advance 3) = .ok lo u →
      busRead (BitVec.ofNat 16 (a16.toNat + 1)) u = .stop (.raise e) t → exec (.jmpInd a16) s = halted) ∧
    (0x4021 ≤ a16.toNat → a16.toNat ≤ 0x5FFF → exec (.jmpInd a16) s =
      .fault (.invalidBusAddress a16 { s with status := .halted (.invalidBusAddress a16) })) ∧
    (a16 = 0x4020#16 → exec (.jmpInd a16) s =
      .fault (.invalidBusAddress 0x4021#16 { s with status := .halted (.invalidBusAddress 0x4021#16) }))

/-! ### What each instruction does -/

/-- ADC Immediate completes from every machine, with the sum in A and C, V, Z, N assigned (41_alu.md R140,
40_step_and_addressing.md R119; that V is one-sided and cleared when its test fails is D3, log 17). -/
def Obligations.AdcImmediateAdds : Prop :=
  ∀ (d8 : Byte) (s : State), ∃ t, exec (.adcImm d8) s = .next t ∧ AdcEffect s t d8 ∧
    t = { s with a := t.a, p := t.p, pc := s.pc + 2#16, cyc := s.cyc + Config.stepCycles }

/-- ADC from memory, in its seven modes, completes wherever the operand resolves, with the sum in A and C, V, Z, N
assigned, and changes nothing else of the core (41_alu.md R140; D3, log 17). -/
def Obligations.AdcFromMemoryAdds : Prop :=
  ∀ (d8 : Byte) (a16 : Addr), ∀ f ∈ adcForms d8 a16, ∀ (s u : State) (ea : Addr) (m : Byte),
    Resolves f.2 s ea m u → ∃ t, exec f.1 s = .next t ∧ AdcEffect s t m ∧
      t = { s with a := t.a, p := t.p, pc := s.pc + BitVec.ofNat 16 f.2.length,
                   cyc := s.cyc + Config.stepCycles, gfxLog := u.gfxLog, draws := u.draws }

/-- BIT completes wherever the operand resolves: Z from the AND, V and N from bits 6 and 7 of the operand; A, the
other flags and memory unchanged (41_alu.md R141). -/
def Obligations.BitTestsTheOperand : Prop :=
  ∀ (d8 : Byte) (a16 : Addr), ∀ f ∈ bitForms d8 a16, ∀ (s u : State) (ea : Addr) (m : Byte),
    Resolves f.2 s ea m u → ∃ t, exec f.1 s = .next t ∧
      t.flag .zero = decide (s.a &&& m = 0#8) ∧ t.flag .overflow = m.getLsbD 6 ∧
      t.flag .negative = m.getLsbD 7 ∧
      (∀ g ∈ [Flag.carry, .interruptDisable, .decimal, .brk, .unused], t.flag g = s.flag g) ∧
      t = { s with p := t.p, pc := s.pc + BitVec.ofNat 16 f.2.length, cyc := s.cyc + Config.stepCycles,
                   gfxLog := u.gfxLog, draws := u.draws }

/-- LDA completes, Immediate from every machine and in its seven other modes wherever the operand resolves: the operand
in A, Z and N assigned from it, nothing else of the core changed (42_load_store.md R150, R151). -/
def Obligations.LdaLoadsTheAccumulator : Prop :=
  ∀ (d8 : Byte) (a16 : Addr) (s : State),
    (∃ t, exec (.ldaImm d8) s = .next t ∧ LoadFlags s t d8 ∧
      t = { s with a := d8, p := t.p, pc := s.pc + 2#16, cyc := s.cyc + Config.stepCycles }) ∧
    ∀ f ∈ ldaForms d8 a16, ∀ (u : State) (ea : Addr) (m : Byte), Resolves f.2 s ea m u →
      ∃ t, exec f.1 s = .next t ∧ LoadFlags s t m ∧
        t = { s with a := m, p := t.p, pc := s.pc + BitVec.ofNat 16 f.2.length,
                     cyc := s.cyc + Config.stepCycles, gfxLog := u.gfxLog, draws := u.draws }

/-- LDX completes, Immediate from every machine and in its four other modes, the indexed ones by Y, wherever the
operand resolves: the operand in X, Z and N assigned from it, nothing else of the core changed (42_load_store.md R150,
R152). -/
def Obligations.LdxLoadsTheIndex : Prop :=
  ∀ (d8 : Byte) (a16 : Addr) (s : State),
    (∃ t, exec (.ldxImm d8) s = .next t ∧ LoadFlags s t d8 ∧
      t = { s with x := d8, p := t.p, pc := s.pc + 2#16, cyc := s.cyc + Config.stepCycles }) ∧
    ∀ f ∈ ldxForms d8 a16, ∀ (u : State) (ea : Addr) (m : Byte), Resolves f.2 s ea m u →
      ∃ t, exec f.1 s = .next t ∧ LoadFlags s t m ∧
        t = { s with x := m, p := t.p, pc := s.pc + BitVec.ofNat 16 f.2.length,
                     cyc := s.cyc + Config.stepCycles, gfxLog := u.gfxLog, draws := u.draws }

/-- STA and STX, in all their modes, complete where storage stands at the effective address: the register's byte is
stored there and nowhere else, no register but pc and no flag changes (42_load_store.md R153, R154; the read that
Resolve makes first is the spec's choice D24, log 20; that 0x4020 stores D18, log 23; the zero of the extra cycles D30,
log 32); the memory is in its canonical form (`StepKeepsTheMemoryForm`). -/
def Obligations.StoresToStorage : Prop :=
  ∀ (d8 : Byte) (a16 : Addr) (s : State), s.wf = true → ∀ f ∈ storeForms d8 a16 s,
    ∀ (u : State) (ea : Addr) (m : Byte), Resolves f.2.1 s ea m u → StorageAddress ea →
      ∃ t, exec f.1 s = .next t ∧ t.peek ea = some f.2.2 ∧ SameMemoryOutside [ea] s t ∧
        t = { s with mem := t.mem, pc := s.pc + BitVec.ofNat 16 f.2.1.length,
                     cyc := s.cyc + Config.stepCycles, gfxLog := u.gfxLog, draws := u.draws }

/-- STA and STX to the graphics window: the register is read first (Resolve), then the byte is handed to the facade;
the instruction completes if the facade answers and accepts, and halts the machine if it fails at either access
(42_load_store.md R153, R154, 20_memory.md R60, 60_exceptions.md R203). The read is the spec's choice D24, log 20; the
failures D19, log 10; that the accesses made stand after an error D22, log 29, the failing one among them log 10; the
zero of the extra cycles D30, log 32. -/
def Obligations.StoresToGraphics : Prop :=
  ∀ (d8 : Byte) (a16 : Addr) (s : State), ∀ f ∈ storeForms d8 a16 s, ∀ (u : State) (ea : Addr),
    effectiveAddress f.2.1 (s.advance f.2.1.length) = .ok ea u → 0x2000 ≤ ea.toNat → ea.toNat < 0x4000 →
      let r : GfxReg := BitVec.ofNat 3 (ea.toNat % 8)
      (∀ m, Config.gfxRead u.gfxLog r = .byte m →
        (Config.gfxWriteAccepted (u.gfxLog ++ [.read r (.byte m)]) r f.2.2 = true →
          exec f.1 s = .next { s with
            pc := s.pc + BitVec.ofNat 16 f.2.1.length, cyc := s.cyc + Config.stepCycles,
            gfxLog := u.gfxLog ++ [.read r (.byte m), .write r f.2.2 true], draws := u.draws }) ∧
        (Config.gfxWriteAccepted (u.gfxLog ++ [.read r (.byte m)]) r f.2.2 = false →
          exec f.1 s = .fault (.invalidRegisterAccess { s with
            gfxLog := u.gfxLog ++ [.read r (.byte m), .write r f.2.2 false], draws := u.draws,
            status := .halted .invalidRegisterAccess }))) ∧
      (Config.gfxRead u.gfxLog r = .invalidRegisterAccess →
        exec f.1 s = .fault (.invalidRegisterAccess { s with
          gfxLog := u.gfxLog ++ [.read r .invalidRegisterAccess], draws := u.draws,
          status := .halted .invalidRegisterAccess }))

/-- STA and STX to 0x4014 start the bulk transfer from the page the register names: the instruction completes if the
256 reads do, with one load of the facade and 513 or 514 extra cycles by the count at the step's start, and ends in the
error of the first read that raises, with nothing loaded and the facade reads made before it standing
(42_load_store.md R153, R154, 20_memory.md R62, R77). The order and the failure are the spec's choice D20, log 21; which
count gives the parity, and that the amounts are added inside the step, D12, log 22; that the reads made before the
raise stand D22, log 29; the read of 0x4014 that Resolve makes first D24, D14, log 20, log 11. -/
def Obligations.StoresToTheBulkTrigger : Prop :=
  ∀ (d8 : Byte) (a16 : Addr) (s : State), ∀ f ∈ storeForms d8 a16 s,
    ∀ (u w : State) (m : Byte), Resolves f.2.1 s 0x4014#16 m u →
      (∀ bytes, readRun 256 (BitVec.ofNat 16 (f.2.2.toNat * 256)) u = .ok bytes w →
        bytes.length = 256 ∧ exec f.1 s = .next { s with
          pc := s.pc + BitVec.ofNat 16 f.2.1.length,
          cyc := s.cyc + Config.stepCycles + (513 + s.cyc % 2),
          gfxLog := w.gfxLog ++ [.bulkLoad bytes], draws := w.draws }) ∧
      (∀ e, readRun 256 (BitVec.ofNat 16 (f.2.2.toNat * 256)) u = .stop (.raise e) w →
        exec f.1 s =
          .fault (e.toFault { s with gfxLog := w.gfxLog, draws := w.draws, status := .halted e }))

/-- STA and STX into the image window are refused: the spec gives the write no meaning (20_memory.md R65, D15,
log 12). -/
def Obligations.StoresToTheImageAreRefused : Prop :=
  ∀ (d8 : Byte) (a16 : Addr) (s : State), ∀ f ∈ storeForms d8 a16 s,
    ∀ (u : State) (ea : Addr) (m : Byte), Resolves f.2.1 s ea m u → 0x8000 ≤ ea.toNat →
      exec f.1 s = .refused (.prgRomWrite ea)

/-- JMP, in both modes, completes wherever the byte at its target can be read: the pc is the effective address, nothing
else of the core changes (43_jumps_subroutines.md R160). That JMP reads the byte at its target, which is what it needs
to complete and what may add to the record of facade accesses, is the spec's choice D24, log 20. -/
def Obligations.JmpGoesToItsTarget : Prop :=
  ∀ (a16 : Addr), ∀ f ∈ jmpForms a16, ∀ (s u : State) (ea : Addr) (m : Byte), Resolves f.2 s ea m u →
    exec f.1 s = .next { s with pc := ea, cyc := s.cyc + Config.stepCycles, gfxLog := u.gfxLog,
                                draws := u.draws }

/-- JSR completes wherever the byte at its target can be read: the address of the next instruction is pushed, low
byte at the higher slot, the pc is the target (43_jumps_subroutines.md R161, 10_state.md R33). That JSR reads the byte
at its target, which is what it needs to complete and what may add to the record of facade accesses, is the spec's
choice D24, log 20. The memory is in its canonical form (`StepKeepsTheMemoryForm`). -/
def Obligations.JsrPushesTheNextAddress : Prop :=
  ∀ (a16 : Addr) (s u : State) (m : Byte), s.wf = true → Resolves (.absolute a16) s a16 m u →
    ∃ t, exec (.jsr a16) s = .next t ∧ t.peek (slot s.sp) = some (lo8 (s.pc + 3#16)) ∧
      t.peek (slot (s.sp - 1#8)) = some (hi8 (s.pc + 3#16)) ∧
      SameMemoryOutside [slot s.sp, slot (s.sp - 1#8)] s t ∧
      t = { s with mem := t.mem, sp := s.sp - 2#8, pc := a16, cyc := s.cyc + Config.stepCycles,
                   gfxLog := u.gfxLog, draws := u.draws }

/-- RTS completes from every machine: the pc is the popped value, with no adjustment, SP goes up by two, nothing else
changes (43_jumps_subroutines.md R162). Storage stands behind every slot, so the two bytes always exist. -/
def Obligations.RtsTakesThePoppedAddress : Prop :=
  ∀ (s : State) (hi lo : Byte), s.peek (slot (s.sp + 1#8)) = some hi → s.peek (slot (s.sp + 2#8)) = some lo →
    exec .rts s = .next { s with pc := wordOf hi lo, sp := s.sp + 2#8, cyc := s.cyc + Config.stepCycles }

/-- BRK completes from every machine: the address after the opcode and P with Break and Unused set are pushed, the pc
is the break vector, InterruptDisable is set, nothing else changes (44_break_return.md R170); the memory is in its
canonical form (`StepKeepsTheMemoryForm`). -/
def Obligations.BrkEntersTheHandler : Prop :=
  ∀ (s : State) (lo hi : Byte), s.wf = true → s.peek 0xFFFE#16 = some lo → s.peek 0xFFFF#16 = some hi →
    ∃ t, exec .brk s = .next t ∧ t.peek (slot s.sp) = some (lo8 (s.pc + 1#16)) ∧
      t.peek (slot (s.sp - 1#8)) = some (hi8 (s.pc + 1#16)) ∧
      t.peek (slot (s.sp - 2#8)) = some (s.p ||| 0x30#8) ∧
      SameMemoryOutside [slot s.sp, slot (s.sp - 1#8), slot (s.sp - 2#8)] s t ∧
      t = { s with mem := t.mem, sp := s.sp - 3#8, p := s.p ||| 0x04#8, pc := wordOf hi lo,
                   cyc := s.cyc + Config.stepCycles }

/-- RTI completes from every machine: P is the popped byte with bit 4 cleared, the pc the popped value, SP goes up by
three, nothing else changes (44_break_return.md R171). -/
def Obligations.RtiRestoresStatusAndPc : Prop :=
  ∀ (s : State) (b hi lo : Byte), s.peek (slot (s.sp + 1#8)) = some b →
    s.peek (slot (s.sp + 2#8)) = some hi → s.peek (slot (s.sp + 3#8)) = some lo →
    exec .rti s = .next { s with p := b &&& 0xEF#8, pc := wordOf hi lo, sp := s.sp + 3#8,
                                 cyc := s.cyc + Config.stepCycles }

/-- JSR and RTS pair: an RTS run, by whatever machine, with the SP and the two stack bytes a JSR left returns to the
instruction after that JSR and restores SP (43_jumps_subroutines.md R163). -/
def Obligations.RtsReturnsAfterItsJsr : Prop :=
  ∀ (a16 : Addr) (s t v : State), s.wf = true → exec (.jsr a16) s = .next t → v.sp = t.sp →
    v.peek (slot (t.sp + 1#8)) = t.peek (slot (t.sp + 1#8)) →
    v.peek (slot (t.sp + 2#8)) = t.peek (slot (t.sp + 2#8)) →
    ∃ w, exec .rts v = .next w ∧ w.pc = s.pc + 3#16 ∧ w.sp = s.sp

/-- BRK and RTI pair: an RTI run, by whatever machine, with the SP and the three stack bytes a BRK left resumes at
the byte after the BRK opcode, restores SP, and restores P but for bit 4 clear and bit 5 set (44_break_return.md
R172). -/
def Obligations.RtiReturnsAfterItsBrk : Prop :=
  ∀ (s t v : State), s.wf = true → exec .brk s = .next t → v.sp = t.sp →
    (∀ k ∈ [1#8, 2#8, 3#8], v.peek (slot (t.sp + k)) = t.peek (slot (t.sp + k))) →
    ∃ w, exec .rti v = .next w ∧ w.pc = s.pc + 1#16 ∧ w.sp = s.sp ∧ w.p = (s.p ||| 0x20#8) &&& 0xEF#8

/-- SEC, CLC and NOP complete from every machine: Carry set, Carry cleared, nothing; all else unchanged but the pc,
past the one byte, and the cycle count (45_flags_nop.md R180, R181, R182). -/
def Obligations.FlagInstructionsAndNop : Prop :=
  ∀ s : State,
    exec .sec s = .next { s with p := s.p ||| 0x01#8, pc := s.pc + 1#16, cyc := s.cyc + Config.stepCycles } ∧
    exec .clc s = .next { s with p := s.p &&& 0xFE#8, pc := s.pc + 1#16, cyc := s.cyc + Config.stepCycles } ∧
    exec .nop s = .next { s with pc := s.pc + 1#16, cyc := s.cyc + Config.stepCycles }

/-- The seven branches complete wherever the byte at their target can be read: to the target if the flag has the
wanted value, else to the next instruction; nothing else of the core changes (46_branches.md R190 to R197; the
condition of each name is the spec's choice D7, log 15, the wrap D5, log 18, the read at the target D24, log 20). -/
def Obligations.BranchesFollowTheirFlag : Prop :=
  ∀ (d8 : Byte), ∀ f ∈ branchForms d8, ∀ (s u : State) (ea : Addr) (m : Byte),
    Resolves (.relative d8) s ea m u →
      ea = BitVec.ofInt 16 (s.pc.toNat + 2 + d8.toInt) ∧
      exec f.1 s = .next { s with
        pc := if s.flag f.2.1 = f.2.2 then ea else s.pc + 2#16
        cyc := s.cyc + Config.stepCycles, gfxLog := u.gfxLog, draws := u.draws }

/-! ### Frames of memory -/

/-- An instruction that stores nothing changes no byte of memory: every one but STA, STX, JSR, BRK (41_alu.md R141,
42_load_store.md R151, R152, 43_jumps_subroutines.md R160, R162, 44_break_return.md R171, 45_flags_nop.md R180 to
R182, 46_branches.md R190). -/
def Obligations.OtherInstructionsStoreNothing : Prop :=
  ∀ (i : Instr) (s t : State), exec i s = .next t → i.mnemonic ∉ [.sta, .stx, .jsr, .brk] →
    SameMemory s t ∧ t.prgSize = s.prgSize

/-- STA and STX change no byte of memory but the one at the effective address, none at all where that is no storage,
no register but the pc, and no flag (42_load_store.md R153, R154; that 0x4020 is storage and 0x4014 is none is the
spec's choice D18, log 23). -/
def Obligations.StoresChangeOneByte : Prop :=
  ∀ (d8 : Byte) (a16 : Addr) (s t : State), ∀ f ∈ storeForms d8 a16 s, exec f.1 s = .next t →
    (∀ (ea : Addr) (u : State), effectiveAddress f.2.1 (s.advance f.2.1.length) = .ok ea u →
      SameMemoryOutside [ea] s t ∧ (¬StorageAddress ea → SameMemory s t)) ∧
    t.a = s.a ∧ t.x = s.x ∧ t.y = s.y ∧ t.sp = s.sp ∧ t.p = s.p ∧ t.prgSize = s.prgSize

/-- JSR and BRK change no byte of memory but their two and three stack slots (43_jumps_subroutines.md R161,
44_break_return.md R170). -/
def Obligations.StackInstructionsChangeTheirSlots : Prop :=
  ∀ (a16 : Addr) (s t : State),
    (exec (.jsr a16) s = .next t → SameMemoryOutside [slot s.sp, slot (s.sp - 1#8)] s t ∧
      t.a = s.a ∧ t.x = s.x ∧ t.y = s.y ∧ t.p = s.p ∧ t.prgSize = s.prgSize) ∧
    (exec .brk s = .next t →
      SameMemoryOutside [slot s.sp, slot (s.sp - 1#8), slot (s.sp - 2#8)] s t ∧
      t.a = s.a ∧ t.x = s.x ∧ t.y = s.y ∧ t.prgSize = s.prgSize)

/-! ### Reset -/

/-- Reset over a cartridge with an image of an admitted length, from any machine: the registers, P, SP and the cycle
count as the spec and the parameters give them, the pc from the override or the reset vector of the image, RAM, IO
and CRAM holding whatever they hold, the image in its window, the machine running (70_reset_and_hazards.md R230 to
R233, 10_state.md R47; P's clear bits are D10, log 6, that the arrays' contents are arbitrary D13, log 2, that IO
includes 0x4020 D18, log 23, that the record goes on is log 27). -/
def Obligations.ResetSetsTheMachine : Prop :=
  ∀ (file : List Byte) (r : ResetParams) (contents : Nat → Byte) (before : State) (cart : Cartridge),
    loadCartridge file = .ok cart → (cart.prg.length = 0x4000 ∨ cart.prg.length = 0x8000) → r.cyc ≠ 0 →
    ∃ t, hostReset file r contents before = .ready t ∧ t.a = 0x00 ∧ t.x = 0x00 ∧ t.y = 0x00 ∧ t.p = 0x24 ∧
      t.sp = r.sp ∧ t.cyc = r.cyc ∧ t.status = .running ∧ t.gfxLog = before.gfxLog ∧ t.wf = true ∧
      t.prgSize.bytes = cart.prg.length ∧
      (∀ a : Addr, StorageAddress a → t.peek a = some (contents (cellOf t.prgSize a))) ∧
      (∀ a : Addr, 0x8000 ≤ a.toNat → t.peek a = cart.prg[(a.toNat - 0x8000) % cart.prg.length]?) ∧
      t.pc = r.pcOverride.getD
        (wordOf (cart.prg.getD (cart.prg.length - 3) 0#8) (cart.prg.getD (cart.prg.length - 4) 0#8))

/-- Reset yields no machine when the loader fails, and refuses an image of another length (70_reset_and_hazards.md
R234, 60_exceptions.md R206, 20_memory.md R64; the refusal is D16, log 24). -/
def Obligations.ResetWithoutAnImageYieldsNoMachine : Prop :=
  ∀ (file : List Byte) (r : ResetParams) (contents : Nat → Byte) (before : State),
    (∀ e, loadCartridge file = .error e → hostReset file r contents before = .failed e) ∧
    ∀ cart, loadCartridge file = .ok cart → cart.prg.length ≠ 0x4000 → cart.prg.length ≠ 0x8000 →
      hostReset file r contents before = .refused (.prgImageLength cart.prg.length)

/-- The loader on a file with a whole header: bad signature, trainer, too short, and the two images cut out of it
(70_reset_and_hazards.md R236, R237); which error a file with a trainer that is also too short gives is free, and so
is the name of the error of a file without a whole header (log 25). -/
def Obligations.LoaderCutsOutTheImages : Prop :=
  ∀ file : List Byte,
    let prg := (file.getD 4 0#8).toNat * 16384
    let chr := (file.getD 5 0#8).toNat * 8192
    (file.length < 16 → loadCartridge file = .error .emptyFile ∨ loadCartridge file = .error .invalidHeader) ∧
    (16 ≤ file.length → file.take 4 ≠ [0x4E#8, 0x45#8, 0x53#8, 0x1A#8] →
      loadCartridge file = .error .invalidHeader) ∧
    (16 ≤ file.length → file.take 4 = [0x4E#8, 0x45#8, 0x53#8, 0x1A#8] →
      ((file.getD 6 0#8).getLsbD 5 = true → 16 + prg + chr ≤ file.length →
        loadCartridge file = .error .unsupportedFeature) ∧
      ((file.getD 6 0#8).getLsbD 5 = false → file.length < 16 + prg + chr →
        loadCartridge file = .error .truncatedFile) ∧
      ((file.getD 6 0#8).getLsbD 5 = false → 16 + prg + chr ≤ file.length →
        ∃ cart, loadCartridge file = .ok cart ∧ cart.prg.length = prg ∧ cart.chr.length = chr ∧
          (∀ k, k < prg → cart.prg[k]? = file[16 + k]?) ∧
          ∀ k, k < chr → cart.chr[k]? = file[16 + prg + k]?))
end

