-- ==== Sys2Proof/Laws/Memory.lean ====
section
/-! SUPPORT. The laws of the storage cells: read after write, the canonical form, and that the canonical form makes
equal contents equal data. -/

namespace Sys2Proof.Machine

@[simp] theorem Memory.read_nil (i : Nat) : Memory.read [] i = Config.unlistedByte := rfl

theorem Memory.read_cons (k : Nat) (b : Byte) (m : Memory) (i : Nat) :
    Memory.read ((k, b) :: m) i = if k = i then b else Memory.read m i := rfl

theorem Memory.write_cons (k : Nat) (b : Byte) (m : Memory) (i : Nat) (v : Byte) :
    Memory.write ((k, b) :: m) i v =
      if i < k then (if v = Config.unlistedByte then (k, b) :: m else (i, v) :: (k, b) :: m)
      else if i = k then (if v = Config.unlistedByte then m else (i, v) :: m)
      else (k, b) :: Memory.write m i v := rfl

theorem Memory.wfFrom_cons (lo k : Nat) (b : Byte) (m : Memory) :
    Memory.wfFrom lo ((k, b) :: m) = true ↔
      lo ≤ k ∧ b ≠ Config.unlistedByte ∧ Memory.wfFrom (k + 1) m = true := by
  simp [Memory.wfFrom, and_assoc]

theorem Memory.wfFrom_mono {lo lo' : Nat} (h : lo' ≤ lo) :
    ∀ {m : Memory}, Memory.wfFrom lo m = true → Memory.wfFrom lo' m = true
  | [], _ => rfl
  | (k, b) :: m, hm => by
    rw [Memory.wfFrom_cons] at *
    exact ⟨h.trans hm.1, hm.2⟩

/-- In a memory in canonical form from `lo` on, the cells below `lo` are unlisted. -/
theorem Memory.read_below : ∀ {m : Memory} {lo i : Nat}, Memory.wfFrom lo m = true → i < lo →
    m.read i = Config.unlistedByte
  | [], _, _, _, _ => rfl
  | (k, b) :: m, lo, i, hm, hi => by
    rw [Memory.wfFrom_cons] at hm
    rw [Memory.read_cons, if_neg (by omega)]
    exact Memory.read_below hm.2.2 (by omega)

/-- A cell reads the byte written to it. -/
theorem Memory.read_write_same : ∀ {m : Memory} {lo : Nat} (i : Nat) (v : Byte),
    Memory.wfFrom lo m = true → (m.write i v).read i = v
  | [], _, i, v, _ => by
    by_cases hv : v = Config.unlistedByte <;> simp [Memory.write, Memory.read_cons, hv]
  | (k, b) :: m, lo, i, v, hm => by
    rw [Memory.wfFrom_cons] at hm
    rw [Memory.write_cons]
    split
    · split
      · rename_i hik hv
        rw [Memory.read_cons, if_neg (by omega), Memory.read_below hm.2.2 (by omega), hv]
      · simp [Memory.read_cons]
    · split
      · split
        · rename_i hv
          rw [Memory.read_below hm.2.2 (by omega), hv]
        · simp [Memory.read_cons]
      · rename_i h1 h2
        rw [Memory.read_cons, if_neg (fun h => h2 h.symm)]
        exact Memory.read_write_same i v hm.2.2

/-- The other cells read what they read before. -/
theorem Memory.read_write_other : ∀ (m : Memory) {i j : Nat} (v : Byte), i ≠ j →
    (m.write i v).read j = m.read j
  | [], i, j, v, h => by
    by_cases hv : v = Config.unlistedByte <;> simp [Memory.write, Memory.read_cons, hv, h]
  | (k, b) :: m, i, j, v, h => by
    rw [Memory.write_cons]
    split
    · split
      · rfl
      · simp [Memory.read_cons, h]
    · split
      · rename_i hik
        subst hik
        split <;> simp [Memory.read_cons, h]
      · rw [Memory.read_cons, Memory.read_cons, Memory.read_write_other m v h]

theorem Memory.wfFrom_write : ∀ {m : Memory} {lo : Nat} (i : Nat) (v : Byte), lo ≤ i →
    Memory.wfFrom lo m = true → Memory.wfFrom lo (m.write i v) = true
  | [], lo, i, v, hi, _ => by
    by_cases hv : v = Config.unlistedByte
    · simp [Memory.write, hv, Memory.wfFrom]
    · simp [Memory.write, hv, Memory.wfFrom, hi]
  | (k, b) :: m, lo, i, v, hi, hm => by
    have hm' := hm
    rw [Memory.wfFrom_cons] at hm'
    rw [Memory.write_cons]
    split
    · split
      · exact hm
      · rename_i hik hv
        rw [Memory.wfFrom_cons, Memory.wfFrom_cons]
        exact ⟨hi, hv, by omega, hm'.2⟩
    · split
      · rename_i hik
        subst hik
        split
        · exact Memory.wfFrom_mono (by omega) hm'.2.2
        · rename_i hv
          rw [Memory.wfFrom_cons]
          exact ⟨hi, hv, hm'.2.2⟩
      · rw [Memory.wfFrom_cons]
        exact ⟨hm'.1, hm'.2.1, Memory.wfFrom_write i v (by omega) hm'.2.2⟩

/-- A write keeps the canonical form. -/
theorem Memory.wf_write {m : Memory} (i : Nat) (v : Byte) (h : m.wf = true) : (m.write i v).wf = true :=
  Memory.wfFrom_write i v (Nat.zero_le i) h

@[simp] theorem Memory.wf_nil : Memory.wf [] = true := rfl

/-- What a write lists beside the old entries is the written cell. -/
theorem Memory.mem_write : ∀ {m : Memory} {i : Nat} {v : Byte} {c : Host.Cell},
    c ∈ m.write i v → c ∈ m ∨ c = (i, v)
  | [], i, v, c, h => by
    by_cases hv : v = Config.unlistedByte <;> simp [Memory.write, hv] at h
    exact .inr h
  | (k, b) :: m, i, v, c, h => by
    rw [Memory.write_cons] at h
    split at h
    · split at h
      · exact .inl h
      · rcases List.mem_cons.1 h with h | h
        · exact .inr h
        · exact .inl h
    · split at h
      · split at h
        · exact .inl (List.mem_cons_of_mem _ h)
        · rcases List.mem_cons.1 h with h | h
          · exact .inr h
          · exact .inl (List.mem_cons_of_mem _ h)
      · rcases List.mem_cons.1 h with h | h
        · exact .inl (h ▸ List.mem_cons_self)
        · rcases Memory.mem_write h with h | h
          · exact .inl (List.mem_cons_of_mem _ h)
          · exact .inr h

theorem Memory.eq_of_read_from : ∀ {m m' : Memory} {lo : Nat}, Memory.wfFrom lo m = true →
    Memory.wfFrom lo m' = true → (∀ i, lo ≤ i → m.read i = m'.read i) → m = m'
  | [], [], _, _, _, _ => rfl
  | [], (k, b) :: m', lo, _, h', he => by
    rw [Memory.wfFrom_cons] at h'
    have := he k h'.1
    simp [Memory.read_cons] at this
    exact absurd this.symm h'.2.1
  | (k, b) :: m, [], lo, h, _, he => by
    rw [Memory.wfFrom_cons] at h
    have := he k h.1
    simp [Memory.read_cons] at this
    exact absurd this h.2.1
  | (k, b) :: m, (k', b') :: m', lo, h, h', he => by
    rw [Memory.wfFrom_cons] at h h'
    have hkk : k = k' := by
      rcases Nat.lt_trichotomy k k' with hlt | heq | hlt
      · have := he k h.1
        rw [Memory.read_cons, if_pos rfl, Memory.read_cons, if_neg (by omega),
          Memory.read_below h'.2.2 (by omega)] at this
        exact absurd this h.2.1
      · exact heq
      · have := he k' h'.1
        rw [Memory.read_cons, if_neg (by omega), Memory.read_below h.2.2 (by omega), Memory.read_cons,
          if_pos rfl] at this
        exact absurd this.symm h'.2.1
    subst hkk
    have hb : b = b' := by
      have := he k h.1
      simpa [Memory.read_cons] using this
    subst hb
    have hm : m = m' := Memory.eq_of_read_from h.2.2 h'.2.2 fun i hi => by
      have := he i (by omega)
      rwa [Memory.read_cons, if_neg (by omega), Memory.read_cons, if_neg (by omega)] at this
    rw [hm]

/-- Equal contents are equal data: two memories in canonical form that read alike are one list. -/
theorem Memory.eq_of_read {m m' : Memory} (h : m.wf = true) (h' : m'.wf = true)
    (he : ∀ i, m.read i = m'.read i) : m = m' :=
  Memory.eq_of_read_from h h' fun i _ => he i

end Sys2Proof.Machine
end

