-- ==== Sys2Proof/Laws/State.lean ====
section
/-! SUPPORT. One lemma per field per update of the state, so that no later proof unfolds a record update. -/

namespace Sys2Proof.Machine

variable (s start : State)

@[simp] theorem State.setA_a (v : Byte) : (s.setA v).a = v := rfl
@[simp] theorem State.setA_x (v : Byte) : (s.setA v).x = s.x := rfl
@[simp] theorem State.setA_y (v : Byte) : (s.setA v).y = s.y := rfl
@[simp] theorem State.setA_pc (v : Byte) : (s.setA v).pc = s.pc := rfl
@[simp] theorem State.setA_sp (v : Byte) : (s.setA v).sp = s.sp := rfl
@[simp] theorem State.setA_p (v : Byte) : (s.setA v).p = s.p := rfl
@[simp] theorem State.setA_cyc (v : Byte) : (s.setA v).cyc = s.cyc := rfl
@[simp] theorem State.setA_mem (v : Byte) : (s.setA v).mem = s.mem := rfl
@[simp] theorem State.setA_prgSize (v : Byte) : (s.setA v).prgSize = s.prgSize := rfl
@[simp] theorem State.setA_gfxLog (v : Byte) : (s.setA v).gfxLog = s.gfxLog := rfl
@[simp] theorem State.setA_draws (v : Byte) : (s.setA v).draws = s.draws := rfl
@[simp] theorem State.setA_status (v : Byte) : (s.setA v).status = s.status := rfl

@[simp] theorem State.setX_a (v : Byte) : (s.setX v).a = s.a := rfl
@[simp] theorem State.setX_x (v : Byte) : (s.setX v).x = v := rfl
@[simp] theorem State.setX_y (v : Byte) : (s.setX v).y = s.y := rfl
@[simp] theorem State.setX_pc (v : Byte) : (s.setX v).pc = s.pc := rfl
@[simp] theorem State.setX_sp (v : Byte) : (s.setX v).sp = s.sp := rfl
@[simp] theorem State.setX_p (v : Byte) : (s.setX v).p = s.p := rfl
@[simp] theorem State.setX_cyc (v : Byte) : (s.setX v).cyc = s.cyc := rfl
@[simp] theorem State.setX_mem (v : Byte) : (s.setX v).mem = s.mem := rfl
@[simp] theorem State.setX_prgSize (v : Byte) : (s.setX v).prgSize = s.prgSize := rfl
@[simp] theorem State.setX_gfxLog (v : Byte) : (s.setX v).gfxLog = s.gfxLog := rfl
@[simp] theorem State.setX_draws (v : Byte) : (s.setX v).draws = s.draws := rfl
@[simp] theorem State.setX_status (v : Byte) : (s.setX v).status = s.status := rfl

@[simp] theorem State.setPc_a (v : Addr) : (s.setPc v).a = s.a := rfl
@[simp] theorem State.setPc_x (v : Addr) : (s.setPc v).x = s.x := rfl
@[simp] theorem State.setPc_y (v : Addr) : (s.setPc v).y = s.y := rfl
@[simp] theorem State.setPc_pc (v : Addr) : (s.setPc v).pc = v := rfl
@[simp] theorem State.setPc_sp (v : Addr) : (s.setPc v).sp = s.sp := rfl
@[simp] theorem State.setPc_p (v : Addr) : (s.setPc v).p = s.p := rfl
@[simp] theorem State.setPc_cyc (v : Addr) : (s.setPc v).cyc = s.cyc := rfl
@[simp] theorem State.setPc_mem (v : Addr) : (s.setPc v).mem = s.mem := rfl
@[simp] theorem State.setPc_prgSize (v : Addr) : (s.setPc v).prgSize = s.prgSize := rfl
@[simp] theorem State.setPc_gfxLog (v : Addr) : (s.setPc v).gfxLog = s.gfxLog := rfl
@[simp] theorem State.setPc_draws (v : Addr) : (s.setPc v).draws = s.draws := rfl
@[simp] theorem State.setPc_status (v : Addr) : (s.setPc v).status = s.status := rfl

@[simp] theorem State.setSp_a (v : Byte) : (s.setSp v).a = s.a := rfl
@[simp] theorem State.setSp_x (v : Byte) : (s.setSp v).x = s.x := rfl
@[simp] theorem State.setSp_y (v : Byte) : (s.setSp v).y = s.y := rfl
@[simp] theorem State.setSp_pc (v : Byte) : (s.setSp v).pc = s.pc := rfl
@[simp] theorem State.setSp_sp (v : Byte) : (s.setSp v).sp = v := rfl
@[simp] theorem State.setSp_p (v : Byte) : (s.setSp v).p = s.p := rfl
@[simp] theorem State.setSp_cyc (v : Byte) : (s.setSp v).cyc = s.cyc := rfl
@[simp] theorem State.setSp_mem (v : Byte) : (s.setSp v).mem = s.mem := rfl
@[simp] theorem State.setSp_prgSize (v : Byte) : (s.setSp v).prgSize = s.prgSize := rfl
@[simp] theorem State.setSp_gfxLog (v : Byte) : (s.setSp v).gfxLog = s.gfxLog := rfl
@[simp] theorem State.setSp_draws (v : Byte) : (s.setSp v).draws = s.draws := rfl
@[simp] theorem State.setSp_status (v : Byte) : (s.setSp v).status = s.status := rfl

@[simp] theorem State.setP_a (v : Byte) : (s.setP v).a = s.a := rfl
@[simp] theorem State.setP_x (v : Byte) : (s.setP v).x = s.x := rfl
@[simp] theorem State.setP_y (v : Byte) : (s.setP v).y = s.y := rfl
@[simp] theorem State.setP_pc (v : Byte) : (s.setP v).pc = s.pc := rfl
@[simp] theorem State.setP_sp (v : Byte) : (s.setP v).sp = s.sp := rfl
@[simp] theorem State.setP_p (v : Byte) : (s.setP v).p = v := rfl
@[simp] theorem State.setP_cyc (v : Byte) : (s.setP v).cyc = s.cyc := rfl
@[simp] theorem State.setP_mem (v : Byte) : (s.setP v).mem = s.mem := rfl
@[simp] theorem State.setP_prgSize (v : Byte) : (s.setP v).prgSize = s.prgSize := rfl
@[simp] theorem State.setP_gfxLog (v : Byte) : (s.setP v).gfxLog = s.gfxLog := rfl
@[simp] theorem State.setP_draws (v : Byte) : (s.setP v).draws = s.draws := rfl
@[simp] theorem State.setP_status (v : Byte) : (s.setP v).status = s.status := rfl

@[simp] theorem State.setCyc_a (v : Nat) : (s.setCyc v).a = s.a := rfl
@[simp] theorem State.setCyc_x (v : Nat) : (s.setCyc v).x = s.x := rfl
@[simp] theorem State.setCyc_y (v : Nat) : (s.setCyc v).y = s.y := rfl
@[simp] theorem State.setCyc_pc (v : Nat) : (s.setCyc v).pc = s.pc := rfl
@[simp] theorem State.setCyc_sp (v : Nat) : (s.setCyc v).sp = s.sp := rfl
@[simp] theorem State.setCyc_p (v : Nat) : (s.setCyc v).p = s.p := rfl
@[simp] theorem State.setCyc_cyc (v : Nat) : (s.setCyc v).cyc = v := rfl
@[simp] theorem State.setCyc_mem (v : Nat) : (s.setCyc v).mem = s.mem := rfl
@[simp] theorem State.setCyc_prgSize (v : Nat) : (s.setCyc v).prgSize = s.prgSize := rfl
@[simp] theorem State.setCyc_gfxLog (v : Nat) : (s.setCyc v).gfxLog = s.gfxLog := rfl
@[simp] theorem State.setCyc_draws (v : Nat) : (s.setCyc v).draws = s.draws := rfl
@[simp] theorem State.setCyc_status (v : Nat) : (s.setCyc v).status = s.status := rfl

@[simp] theorem State.setMem_a (v : Memory) : (s.setMem v).a = s.a := rfl
@[simp] theorem State.setMem_x (v : Memory) : (s.setMem v).x = s.x := rfl
@[simp] theorem State.setMem_y (v : Memory) : (s.setMem v).y = s.y := rfl
@[simp] theorem State.setMem_pc (v : Memory) : (s.setMem v).pc = s.pc := rfl
@[simp] theorem State.setMem_sp (v : Memory) : (s.setMem v).sp = s.sp := rfl
@[simp] theorem State.setMem_p (v : Memory) : (s.setMem v).p = s.p := rfl
@[simp] theorem State.setMem_cyc (v : Memory) : (s.setMem v).cyc = s.cyc := rfl
@[simp] theorem State.setMem_mem (v : Memory) : (s.setMem v).mem = v := rfl
@[simp] theorem State.setMem_prgSize (v : Memory) : (s.setMem v).prgSize = s.prgSize := rfl
@[simp] theorem State.setMem_gfxLog (v : Memory) : (s.setMem v).gfxLog = s.gfxLog := rfl
@[simp] theorem State.setMem_draws (v : Memory) : (s.setMem v).draws = s.draws := rfl
@[simp] theorem State.setMem_status (v : Memory) : (s.setMem v).status = s.status := rfl

@[simp] theorem State.setStatus_a (v : RunStatus) : (s.setStatus v).a = s.a := rfl
@[simp] theorem State.setStatus_x (v : RunStatus) : (s.setStatus v).x = s.x := rfl
@[simp] theorem State.setStatus_y (v : RunStatus) : (s.setStatus v).y = s.y := rfl
@[simp] theorem State.setStatus_pc (v : RunStatus) : (s.setStatus v).pc = s.pc := rfl
@[simp] theorem State.setStatus_sp (v : RunStatus) : (s.setStatus v).sp = s.sp := rfl
@[simp] theorem State.setStatus_p (v : RunStatus) : (s.setStatus v).p = s.p := rfl
@[simp] theorem State.setStatus_cyc (v : RunStatus) : (s.setStatus v).cyc = s.cyc := rfl
@[simp] theorem State.setStatus_mem (v : RunStatus) : (s.setStatus v).mem = s.mem := rfl
@[simp] theorem State.setStatus_prgSize (v : RunStatus) : (s.setStatus v).prgSize = s.prgSize := rfl
@[simp] theorem State.setStatus_gfxLog (v : RunStatus) : (s.setStatus v).gfxLog = s.gfxLog := rfl
@[simp] theorem State.setStatus_draws (v : RunStatus) : (s.setStatus v).draws = s.draws := rfl
@[simp] theorem State.setStatus_status (v : RunStatus) : (s.setStatus v).status = v := rfl

@[simp] theorem State.record_a (e : GfxEvent) : (s.record e).a = s.a := rfl
@[simp] theorem State.record_x (e : GfxEvent) : (s.record e).x = s.x := rfl
@[simp] theorem State.record_y (e : GfxEvent) : (s.record e).y = s.y := rfl
@[simp] theorem State.record_pc (e : GfxEvent) : (s.record e).pc = s.pc := rfl
@[simp] theorem State.record_sp (e : GfxEvent) : (s.record e).sp = s.sp := rfl
@[simp] theorem State.record_p (e : GfxEvent) : (s.record e).p = s.p := rfl
@[simp] theorem State.record_cyc (e : GfxEvent) : (s.record e).cyc = s.cyc := rfl
@[simp] theorem State.record_mem (e : GfxEvent) : (s.record e).mem = s.mem := rfl
@[simp] theorem State.record_prgSize (e : GfxEvent) : (s.record e).prgSize = s.prgSize := rfl
@[simp] theorem State.record_gfxLog (e : GfxEvent) : (s.record e).gfxLog = s.gfxLog ++ [e] := rfl
@[simp] theorem State.record_draws (e : GfxEvent) : (s.record e).draws = s.draws := rfl
@[simp] theorem State.record_status (e : GfxEvent) : (s.record e).status = s.status := rfl

@[simp] theorem State.nextDraw_a : (s.nextDraw).a = s.a := rfl
@[simp] theorem State.nextDraw_x : (s.nextDraw).x = s.x := rfl
@[simp] theorem State.nextDraw_y : (s.nextDraw).y = s.y := rfl
@[simp] theorem State.nextDraw_pc : (s.nextDraw).pc = s.pc := rfl
@[simp] theorem State.nextDraw_sp : (s.nextDraw).sp = s.sp := rfl
@[simp] theorem State.nextDraw_p : (s.nextDraw).p = s.p := rfl
@[simp] theorem State.nextDraw_cyc : (s.nextDraw).cyc = s.cyc := rfl
@[simp] theorem State.nextDraw_mem : (s.nextDraw).mem = s.mem := rfl
@[simp] theorem State.nextDraw_prgSize : (s.nextDraw).prgSize = s.prgSize := rfl
@[simp] theorem State.nextDraw_gfxLog : (s.nextDraw).gfxLog = s.gfxLog := rfl
@[simp] theorem State.nextDraw_draws : (s.nextDraw).draws = s.draws + 1 := rfl
@[simp] theorem State.nextDraw_status : (s.nextDraw).status = s.status := rfl

@[simp] theorem State.setFlag_a (f : Flag) (b : Bool) : (s.setFlag f b).a = s.a := rfl
@[simp] theorem State.setFlag_x (f : Flag) (b : Bool) : (s.setFlag f b).x = s.x := rfl
@[simp] theorem State.setFlag_y (f : Flag) (b : Bool) : (s.setFlag f b).y = s.y := rfl
@[simp] theorem State.setFlag_pc (f : Flag) (b : Bool) : (s.setFlag f b).pc = s.pc := rfl
@[simp] theorem State.setFlag_sp (f : Flag) (b : Bool) : (s.setFlag f b).sp = s.sp := rfl
@[simp] theorem State.setFlag_p (f : Flag) (b : Bool) : (s.setFlag f b).p = Machine.setFlag f b s.p := rfl
@[simp] theorem State.setFlag_cyc (f : Flag) (b : Bool) : (s.setFlag f b).cyc = s.cyc := rfl
@[simp] theorem State.setFlag_mem (f : Flag) (b : Bool) : (s.setFlag f b).mem = s.mem := rfl
@[simp] theorem State.setFlag_prgSize (f : Flag) (b : Bool) : (s.setFlag f b).prgSize = s.prgSize := rfl
@[simp] theorem State.setFlag_gfxLog (f : Flag) (b : Bool) : (s.setFlag f b).gfxLog = s.gfxLog := rfl
@[simp] theorem State.setFlag_draws (f : Flag) (b : Bool) : (s.setFlag f b).draws = s.draws := rfl
@[simp] theorem State.setFlag_status (f : Flag) (b : Bool) : (s.setFlag f b).status = s.status := rfl

@[simp] theorem State.advance_a (n : Nat) : (s.advance n).a = s.a := rfl
@[simp] theorem State.advance_x (n : Nat) : (s.advance n).x = s.x := rfl
@[simp] theorem State.advance_y (n : Nat) : (s.advance n).y = s.y := rfl
@[simp] theorem State.advance_pc (n : Nat) : (s.advance n).pc = s.pc + BitVec.ofNat 16 n := rfl
@[simp] theorem State.advance_sp (n : Nat) : (s.advance n).sp = s.sp := rfl
@[simp] theorem State.advance_p (n : Nat) : (s.advance n).p = s.p := rfl
@[simp] theorem State.advance_cyc (n : Nat) : (s.advance n).cyc = s.cyc := rfl
@[simp] theorem State.advance_mem (n : Nat) : (s.advance n).mem = s.mem := rfl
@[simp] theorem State.advance_prgSize (n : Nat) : (s.advance n).prgSize = s.prgSize := rfl
@[simp] theorem State.advance_gfxLog (n : Nat) : (s.advance n).gfxLog = s.gfxLog := rfl
@[simp] theorem State.advance_draws (n : Nat) : (s.advance n).draws = s.draws := rfl
@[simp] theorem State.advance_status (n : Nat) : (s.advance n).status = s.status := rfl

@[simp] theorem State.abandon_a (e : RuntimeError) : (s.abandon start e).a = start.a := rfl
@[simp] theorem State.abandon_x (e : RuntimeError) : (s.abandon start e).x = start.x := rfl
@[simp] theorem State.abandon_y (e : RuntimeError) : (s.abandon start e).y = start.y := rfl
@[simp] theorem State.abandon_pc (e : RuntimeError) : (s.abandon start e).pc = start.pc := rfl
@[simp] theorem State.abandon_sp (e : RuntimeError) : (s.abandon start e).sp = start.sp := rfl
@[simp] theorem State.abandon_p (e : RuntimeError) : (s.abandon start e).p = start.p := rfl
@[simp] theorem State.abandon_cyc (e : RuntimeError) : (s.abandon start e).cyc = start.cyc := rfl
@[simp] theorem State.abandon_mem (e : RuntimeError) : (s.abandon start e).mem = s.mem := rfl
@[simp] theorem State.abandon_prgSize (e : RuntimeError) : (s.abandon start e).prgSize = s.prgSize := rfl
@[simp] theorem State.abandon_gfxLog (e : RuntimeError) : (s.abandon start e).gfxLog = s.gfxLog := rfl
@[simp] theorem State.abandon_draws (e : RuntimeError) : (s.abandon start e).draws = s.draws := rfl
@[simp] theorem State.abandon_status (e : RuntimeError) : (s.abandon start e).status = .halted e := rfl

@[simp] theorem RuntimeError.toFault_post (e : RuntimeError) : (e.toFault s).post = s := by cases e <;> rfl

@[simp] theorem RuntimeError.toFault_error (e : RuntimeError) : (e.toFault s).error = e := by cases e <;> rfl

/-- Two faults agree when their error and their halted machine do. -/
theorem Fault.eq_toFault (f : Fault) : f = f.error.toFault f.post := by cases f <;> rfl

end Sys2Proof.Machine
end

