-- ==== Sys2Proof/Laws/Bus.lean ====
section
/-! SUPPORT. What a part of a step can do: composition, routing, reading and writing through the bus. -/

namespace Sys2Proof.Machine

/-! ### Composition -/

@[simp] theorem Run.andThen_ok {α β : Type} (v : α) (s : State) (f : α → State → Run β) :
    (Run.ok v s).andThen f = f v s := rfl

@[simp] theorem Run.andThen_stop {α β : Type} (why : Stop) (s : State) (f : α → State → Run β) :
    (Run.stop why s).andThen f = .stop why s := rfl

theorem Run.andThen_eq_ok {α β : Type} {r : Run α} {f : α → State → Run β} {v : β} {t : State} :
    r.andThen f = .ok v t ↔ ∃ u s, r = .ok u s ∧ f u s = .ok v t := by
  cases r <;> simp

theorem Run.andThen_eq_stop {α β : Type} {r : Run α} {f : α → State → Run β} {why : Stop} {t : State} :
    r.andThen f = .stop why t ↔ r = .stop why t ∨ ∃ u s, r = .ok u s ∧ f u s = .stop why t := by
  cases r <;> simp

/-! ### Routing -/

theorem route_ram {a : Addr} : route a = .ram ↔ a.toNat < 0x2000 := by
  unfold route; split_ifs <;> simp_all

theorem route_graphics {a : Addr} : route a = .graphics ↔ 0x2000 ≤ a.toNat ∧ a.toNat < 0x4000 := by
  unfold route; split_ifs <;> simp <;> omega

theorem route_bulkTrigger {a : Addr} : route a = .bulkTrigger ↔ a.toNat = 0x4014 := by
  unfold route; split_ifs <;> simp <;> omega

theorem route_inertStore {a : Addr} :
    route a = .inertStore ↔ 0x4000 ≤ a.toNat ∧ a.toNat < 0x4021 ∧ a.toNat ≠ 0x4014 := by
  unfold route; split_ifs <;> simp <;> omega

theorem route_unmapped {a : Addr} : route a = .unmapped ↔ 0x4021 ≤ a.toNat ∧ a.toNat < 0x6000 := by
  unfold route; split_ifs <;> simp <;> omega

theorem route_cartRam {a : Addr} : route a = .cartRam ↔ 0x6000 ≤ a.toNat ∧ a.toNat < 0x8000 := by
  unfold route; split_ifs <;> simp <;> omega

theorem route_prgRom {a : Addr} : route a = .prgRom ↔ 0x8000 ≤ a.toNat := by
  unfold route; split_ifs <;> simp <;> omega

theorem Region.stored_of_writable {r : Region} (h : r.writable = true) : r.stored = true := by
  cases r <;> simp_all [Region.writable, Region.stored]

theorem PrgSize.bytes_pos (z : PrgSize) : 0 < z.bytes := by cases z <;> simp [PrgSize.bytes]

/-- The cell a stored address reaches exists. -/
theorem isCell_cellOf (z : PrgSize) {a : Addr} (h : (route a).stored = true) : isCell z (cellOf z a) = true := by
  have hz := z.bytes_pos
  unfold cellOf isCell
  split
  · have := Nat.mod_lt a.toNat (show 0 < 0x0800 by decide)
    simp; omega
  · have := Nat.mod_lt (a.toNat - 0x8000) hz
    simp; omega
  · rename_i hr; rw [hr] at h; cases h
  · rename_i hr; rw [hr] at h; cases h
  · rename_i hr; rw [route_inertStore] at hr; simp; omega
  · rename_i hr; rw [hr] at h; cases h
  · rename_i hr; rw [route_cartRam] at hr; simp; omega

/-- The cell a writable address reaches lies below the image. -/
theorem cellOf_lt_of_writable (z : PrgSize) {a : Addr} (h : (route a).writable = true) :
    cellOf z a < 0x8000 := by
  unfold cellOf
  split
  · have := Nat.mod_lt a.toNat (show 0 < 0x0800 by decide)
    omega
  · rename_i hr; rw [hr] at h; cases h
  · rename_i hr; rw [hr] at h; cases h
  · rename_i hr; rw [hr] at h; cases h
  · rename_i hr; rw [route_inertStore] at hr; omega
  · rename_i hr; rw [hr] at h; cases h
  · rename_i hr; rw [route_cartRam] at hr; omega

theorem cellOf_prgRom (z : PrgSize) {a : Addr} (h : 0x8000 ≤ a.toNat) :
    cellOf z a = 0x8000 + (a.toNat - 0x8000) % z.bytes := by
  unfold cellOf; rw [route_prgRom.2 h]

theorem State.peek_stored {s : State} {a : Addr} (h : (route a).stored = true) :
    s.peek a = some (s.mem.read (cellOf s.prgSize a)) := by
  simp [State.peek, h]

theorem State.peek_eq_some {s : State} {a : Addr} {b : Byte} :
    s.peek a = some b ↔ (route a).stored = true ∧ s.mem.read (cellOf s.prgSize a) = b := by
  simp [State.peek]

/-- Reading an address depends on the memory and the image size alone. -/
theorem State.peek_congr {s t : State} (hm : t.mem = s.mem) (hz : t.prgSize = s.prgSize) (a : Addr) :
    t.peek a = s.peek a := by
  simp [State.peek, hm, hz]

/-! ### What stands outside the core -/

theorem OnlyExternal.refl (s : State) : OnlyExternal s s := ⟨rfl, List.prefix_refl _⟩

theorem OnlyExternal.trans {s t u : State} (h : OnlyExternal s t) (k : OnlyExternal t u) :
    OnlyExternal s u := by
  refine ⟨?_, h.2.trans k.2⟩
  rw [k.1, h.1]

theorem OnlyExternal.record (e : GfxEvent) (s : State) : OnlyExternal s (s.record e) :=
  ⟨rfl, List.prefix_append _ _⟩

theorem OnlyExternal.nextDraw (s : State) : OnlyExternal s s.nextDraw := ⟨rfl, List.prefix_refl _⟩

theorem OnlyExternal.a {s t : State} (h : OnlyExternal s t) : t.a = s.a := by rw [h.1]
theorem OnlyExternal.x {s t : State} (h : OnlyExternal s t) : t.x = s.x := by rw [h.1]
theorem OnlyExternal.y {s t : State} (h : OnlyExternal s t) : t.y = s.y := by rw [h.1]
theorem OnlyExternal.pc {s t : State} (h : OnlyExternal s t) : t.pc = s.pc := by rw [h.1]
theorem OnlyExternal.sp {s t : State} (h : OnlyExternal s t) : t.sp = s.sp := by rw [h.1]
theorem OnlyExternal.p {s t : State} (h : OnlyExternal s t) : t.p = s.p := by rw [h.1]
theorem OnlyExternal.cyc {s t : State} (h : OnlyExternal s t) : t.cyc = s.cyc := by rw [h.1]
theorem OnlyExternal.mem {s t : State} (h : OnlyExternal s t) : t.mem = s.mem := by rw [h.1]
theorem OnlyExternal.prgSize {s t : State} (h : OnlyExternal s t) : t.prgSize = s.prgSize := by rw [h.1]
theorem OnlyExternal.status {s t : State} (h : OnlyExternal s t) : t.status = s.status := by rw [h.1]

theorem OnlyExternal.peek {s t : State} (h : OnlyExternal s t) (a : Addr) : t.peek a = s.peek a :=
  State.peek_congr h.mem h.prgSize a

/-- Why a bus access may stop: an address of the hole, or a facade access that failed and was recorded last. -/
def AccessStop (why : Stop) (t : State) : Prop :=
  (∃ a, why = .raise (.invalidBusAddress a) ∧ route a = .unmapped) ∨
    (why = .raise .invalidRegisterAccess ∧
      ((∃ r, t.gfxLog.getLast? = some (.read r .invalidRegisterAccess)) ∨
        ∃ r v, t.gfxLog.getLast? = some (.write r v false)))

/-! ### Reading -/

theorem gfxRead_ok {r : GfxReg} {s t : State} {b : Byte} :
    gfxRead r s = .ok b t ↔
      Config.gfxRead s.gfxLog r = .byte b ∧ t = s.record (.read r (.byte b)) := by
  unfold gfxRead
  split <;> simp_all
  grind

theorem gfxRead_stop {r : GfxReg} {s t : State} {why : Stop} :
    gfxRead r s = .stop why t ↔
      Config.gfxRead s.gfxLog r = .invalidRegisterAccess ∧ why = .raise .invalidRegisterAccess ∧
        t = s.record (.read r .invalidRegisterAccess) := by
  unfold gfxRead
  split <;> simp_all
  grind

/-- A read where storage stands answers the byte there and changes nothing. -/
theorem busRead_stored {a : Addr} (h : (route a).stored = true) (s : State) :
    busRead a s = .ok (s.mem.read (cellOf s.prgSize a)) s := by
  unfold busRead; cases hr : route a <;> simp_all [Region.stored]

/-- Everything an answered read can do: only what stands outside the core changes. -/
theorem busRead_ok_external {a : Addr} {s t : State} {b : Byte} (h : busRead a s = .ok b t) :
    OnlyExternal s t := by
  unfold busRead at h
  split at h
  case h_5 => rw [gfxRead_ok] at h; exact h.2 ▸ OnlyExternal.record _ _
  case h_6 => cases h; exact OnlyExternal.nextDraw _
  case h_7 => cases h
  all_goals cases h; exact OnlyExternal.refl _

/-- Everything a read that stops can do. -/
theorem busRead_stop {a : Addr} {s t : State} {why : Stop} (h : busRead a s = .stop why t) :
    OnlyExternal s t ∧ AccessStop why t := by
  unfold busRead at h
  split at h
  case h_5 =>
    obtain ⟨-, rfl, rfl⟩ := gfxRead_stop.1 h
    exact ⟨OnlyExternal.record _ _, .inr ⟨rfl, .inl ⟨_, List.getLast?_concat⟩⟩⟩
  case h_7 hr => cases h; exact ⟨OnlyExternal.refl _, .inl ⟨a, rfl, hr⟩⟩
  all_goals cases h

/-- A part of a step that only reads: answered or stopped, nothing but what stands outside the core changes. -/
def ReadsOnly {α : Type} (f : State → Run α) : Prop :=
  ∀ s, (∀ v t, f s = .ok v t → OnlyExternal s t) ∧
    ∀ why t, f s = .stop why t → OnlyExternal s t ∧ AccessStop why t

theorem ReadsOnly.ok {α : Type} (v : α) : ReadsOnly (fun s => .ok v s) := fun s =>
  ⟨fun _ _ h => by cases h; exact OnlyExternal.refl s, fun _ _ h => by cases h⟩

theorem ReadsOnly.busRead (a : Addr) : ReadsOnly (Machine.busRead a) := fun _ =>
  ⟨fun _ _ => busRead_ok_external, fun _ _ => busRead_stop⟩

theorem ReadsOnly.andThen {α β : Type} {f : State → Run α} {g : α → State → Run β} (hf : ReadsOnly f)
    (hg : ∀ v, ReadsOnly (g v)) : ReadsOnly (fun s => (f s).andThen g) := by
  intro s
  constructor
  · intro v t h
    obtain ⟨u, s1, h1, h2⟩ := Run.andThen_eq_ok.1 h
    exact ((hf s).1 _ _ h1).trans ((hg u s1).1 _ _ h2)
  · intro why t h
    rcases Run.andThen_eq_stop.1 h with h1 | ⟨u, s1, h1, h2⟩
    · exact (hf s).2 _ _ h1
    · obtain ⟨hx, hs⟩ := (hg u s1).2 _ _ h2
      exact ⟨((hf s).1 _ _ h1).trans hx, hs⟩

theorem ReadsOnly.read16 (a : Addr) : ReadsOnly (Machine.read16 a) :=
  (ReadsOnly.busRead a).andThen fun _ => (ReadsOnly.busRead _).andThen fun _ => ReadsOnly.ok _

theorem ReadsOnly.readRun : ∀ (n : Nat) (a : Addr), ReadsOnly (Machine.readRun n a)
  | 0, _ => ReadsOnly.ok _
  | n + 1, a => (ReadsOnly.busRead a).andThen fun _ => (ReadsOnly.readRun n _).andThen fun _ => ReadsOnly.ok _

theorem readRun_length : ∀ {n : Nat} {a : Addr} {s t : State} {bs : List Byte},
    readRun n a s = .ok bs t → bs.length = n
  | 0, _, _, _, _, h => by cases h; rfl
  | n + 1, a, s, t, bs, h => by
    obtain ⟨b, s1, -, h2⟩ := Run.andThen_eq_ok.1 h
    obtain ⟨bs', s2, h3, h4⟩ := Run.andThen_eq_ok.1 h2
    cases h4
    simp [readRun_length h3]

/-- A 16-bit read of two stored bytes. -/
theorem read16_stored {a : Addr} (s : State) (h : (route a).stored = true)
    (h' : (route (a + 1#16)).stored = true) :
    read16 a s =
      .ok (wordOf (s.mem.read (cellOf s.prgSize (a + 1#16))) (s.mem.read (cellOf s.prgSize a))) s := by
  simp [read16, busRead_stored h, busRead_stored h']

/-! ### Writing -/

/-- Everything an answered write can do: store one byte in a writable region, or change only what stands outside
the core. -/
theorem busWrite_ok {a : Addr} {v : Byte} {c e : Nat} {s t : State} (h : busWrite a v c s = .ok e t) :
    ((route a).writable = true ∧ e = 0 ∧ t = s.setMem (s.mem.write (cellOf s.prgSize a) v)) ∨
      ((route a).writable = false ∧ (e = 0 ∨ e = 513 + c % 2) ∧ OnlyExternal s t) := by
  unfold busWrite at h
  split at h
  case h_4 hr =>
    refine .inr ⟨by rw [hr]; rfl, ?_⟩
    unfold gfxWrite at h
    split at h
    · cases h; exact ⟨.inl rfl, OnlyExternal.record _ _⟩
    · cases h
  case h_5 hr =>
    refine .inr ⟨by rw [hr]; rfl, ?_⟩
    obtain ⟨bs, s1, h1, h2⟩ := Run.andThen_eq_ok.1 h
    cases h2
    exact ⟨.inr rfl, ((ReadsOnly.readRun _ _ s).1 _ _ h1).trans (OnlyExternal.record _ _)⟩
  case h_6 => cases h
  case h_7 => cases h
  all_goals
    rename_i hr
    cases h
    exact .inl ⟨by rw [hr]; rfl, rfl, rfl⟩

/-- Everything a write that stops can do. -/
theorem busWrite_stop {a : Addr} {v : Byte} {c : Nat} {s t : State} {why : Stop}
    (h : busWrite a v c s = .stop why t) :
    OnlyExternal s t ∧ (AccessStop why t ∨ (why = .refuse (.prgRomWrite a) ∧ route a = .prgRom)) := by
  unfold busWrite at h
  split at h
  case h_4 =>
    unfold gfxWrite at h
    split at h
    · cases h
    · cases h
      exact ⟨OnlyExternal.record _ _, .inl (.inr ⟨rfl, .inr ⟨_, _, List.getLast?_concat⟩⟩)⟩
  case h_5 =>
    rcases Run.andThen_eq_stop.1 h with h1 | ⟨bs, s1, h1, h2⟩
    · obtain ⟨hx, hs⟩ := (ReadsOnly.readRun _ _ s).2 _ _ h1
      exact ⟨hx, .inl hs⟩
    · cases h2
  case h_6 hr => cases h; exact ⟨OnlyExternal.refl _, .inl (.inl ⟨a, rfl, hr⟩)⟩
  case h_7 hr => cases h; exact ⟨OnlyExternal.refl _, .inr ⟨rfl, hr⟩⟩
  all_goals cases h

/-- A write where a region stores. -/
theorem busWrite_writable {a : Addr} (h : (route a).writable = true) (v : Byte) (c : Nat) (s : State) :
    busWrite a v c s = .ok 0 (s.setMem (s.mem.write (cellOf s.prgSize a) v)) := by
  unfold busWrite; cases hr : route a <;> simp_all [Region.writable]

/-- After a stored byte, every address that reaches another cell reads as before. -/
theorem peek_setMem_write {s : State} {i : Nat} {v : Byte} {b : Addr} (h : cellOf s.prgSize b ≠ i) :
    (s.setMem (s.mem.write i v)).peek b = s.peek b := by
  simp [State.peek, Memory.read_write_other _ v (Ne.symm h)]

/-- After a stored byte, every address that reaches its cell reads it. -/
theorem peek_setMem_write_same {s : State} (hw : s.mem.wf = true) {v : Byte} {a b : Addr}
    (hb : (route b).stored = true) (h : cellOf s.prgSize b = cellOf s.prgSize a) :
    (s.setMem (s.mem.write (cellOf s.prgSize a) v)).peek b = some v := by
  rw [State.peek_stored hb]
  simp [h, Memory.read_write_same _ v hw]

/-- A state with the same image size whose cell behind `b` holds the same byte reads `b` the same. -/
theorem State.peek_eq_of_cell {s t : State} {b : Addr} (hz : t.prgSize = s.prgSize)
    (hm : t.mem.read (cellOf s.prgSize b) = s.mem.read (cellOf s.prgSize b)) : t.peek b = s.peek b := by
  simp only [State.peek, hz, hm]

theorem State.wf_mem {s : State} (h : s.wf = true) : s.mem.wf = true := by
  simp only [State.wf, Bool.and_eq_true] at h
  exact h.1

theorem storageAddress_iff {a : Addr} : StorageAddress a ↔ (route a).writable = true := by
  unfold StorageAddress route
  split
  · simp [Region.writable, *]
  all_goals (repeat' split) <;> simp [Region.writable] <;> omega

theorem gfxRegOf_eq (a : Addr) : gfxRegOf a = BitVec.ofNat 3 (a.toNat % 8) := by
  apply BitVec.eq_of_toNat_eq
  simp [gfxRegOf]

/-- A write that completes changes no register, no flag, and nothing of the step's bookkeeping. -/
theorem busWrite_ok_registers {a : Addr} {v : Byte} {c e : Nat} {s t : State}
    (h : busWrite a v c s = .ok e t) :
    t = { s with mem := t.mem, gfxLog := t.gfxLog, draws := t.draws } := by
  rcases busWrite_ok h with ⟨-, -, rfl⟩ | ⟨-, -, hx⟩
  · rfl
  · rw [hx.1]

/-- A run of reads where storage stands behind every address. -/
theorem readRun_stored (s : State) : ∀ (n : Nat) (a : Addr),
    (∀ i, i < n → (route (a + BitVec.ofNat 16 i)).stored = true) →
    readRun n a s = .ok ((List.range n).map fun i => (s.peek (a + BitVec.ofNat 16 i)).getD 0#8) s
  | 0, _, _ => rfl
  | n + 1, a, h => by
    have h0 := h 0 (by omega)
    simp only [BitVec.add_zero] at h0
    have hs : ∀ i, a + 1#16 + BitVec.ofNat 16 i = a + BitVec.ofNat 16 (i + 1) := by
      intro i
      rw [BitVec.add_assoc]
      congr 1
      apply BitVec.eq_of_toNat_eq
      simp
      omega
    have ih := readRun_stored s n (a + 1#16) fun i hi => by rw [hs]; exact h (i + 1) (by omega)
    simp only [readRun, busRead_stored h0, Run.andThen_ok, ih, hs, List.range_succ_eq_map, List.map_cons,
      List.map_map]
    congr 2
    simp [State.peek_stored h0]

/-- A run of reads is one run after another. -/
theorem readRun_add (s : State) : ∀ (n m : Nat) (a : Addr), readRun (n + m) a s =
    (readRun n a s).andThen fun bs t =>
      (readRun m (a + BitVec.ofNat 16 n) t).andThen fun cs u => .ok (bs ++ cs) u
  | 0, m, a => by
    simp only [Nat.zero_add, readRun, Run.andThen_ok, List.nil_append, BitVec.add_zero]
    cases readRun m a s <;> rfl
  | n + 1, m, a => by
    rw [Nat.add_right_comm]
    simp only [readRun]
    cases h : busRead a s with
    | stop => rfl
    | ok b s1 =>
      simp only [Run.andThen_ok]
      have hs : a + 1#16 + BitVec.ofNat 16 n = a + BitVec.ofNat 16 (n + 1) := by
        rw [BitVec.add_assoc]
        congr 1
        apply BitVec.eq_of_toNat_eq
        simp
        omega
      rw [readRun_add s1 n m, hs]
      cases readRun n (a + 1#16) s1 with
      | stop => rfl
      | ok bs t =>
        simp only [Run.andThen_ok]
        cases readRun m (a + BitVec.ofNat 16 (n + 1)) t <;> rfl

end Sys2Proof.Machine
end

