-- ==== Sys2Proof/Laws/Stack.lean ====
section
/-! SUPPORT. The stack, the entry to a break and the return from it: each operation always completes, with the
machine it leaves written out (spec/10_state.md R30 to R34, 44_break_return.md R170, R171). -/

namespace Sys2Proof.Machine

theorem stackAddr_toNat (sp : Byte) : (stackAddr sp).toNat = 0x0100 + sp.toNat := by
  have h := sp.isLt
  have hor : (0x0100 : Nat) ||| sp.toNat = 0x0100 + sp.toNat := by
    have := Nat.two_pow_add_eq_or_of_lt (i := 8) h 1
    simpa using this.symm
  simp [stackAddr, BitVec.toNat_or, Nat.mod_eq_of_lt (show sp.toNat < 65536 by omega), hor]

/-- The stack slot is the one the spec counts (R30). -/
theorem stackAddr_eq_slot (sp : Byte) : stackAddr sp = slot sp := by
  apply BitVec.eq_of_toNat_eq
  have h := sp.isLt
  rw [stackAddr_toNat]
  simp [slot]
  omega

@[simp] theorem route_stackAddr (sp : Byte) : route (stackAddr sp) = .ram := by
  rw [route_ram, stackAddr_toNat]
  have := sp.isLt
  omega

@[simp] theorem cellOf_stackAddr (z : PrgSize) (sp : Byte) : cellOf z (stackAddr sp) = 0x0100 + sp.toNat := by
  have := sp.isLt
  unfold cellOf
  rw [route_stackAddr, stackAddr_toNat]
  simp only
  omega

theorem stored_stackAddr (sp : Byte) : (route (stackAddr sp)).stored = true := by simp [Region.stored]

theorem writable_stackAddr (sp : Byte) : (route (stackAddr sp)).writable = true := by simp [Region.writable]

/-- `Push(b)` (R31): it always completes, with no extra cycle. -/
theorem push_eq (b : Byte) (s : State) :
    push b s = .ok 0 ((s.setMem (s.mem.write (0x0100 + s.sp.toNat) b)).setSp (s.sp - 1#8)) := by
  simp [push, memWrite, busWrite_writable (writable_stackAddr s.sp)]

/-- `Pop()` (R32): it always completes. -/
theorem pop_eq (s : State) :
    pop s = .ok (s.mem.read (0x0100 + (s.sp + 1#8).toNat)) (s.setSp (s.sp + 1#8)) := by
  simp [pop, busRead_stored (stored_stackAddr (s.sp + 1#8))]

/-- The memory after `Push16(w)` from the stack pointer `sp` (R33). -/
def pushed16 (m : Memory) (sp : Byte) (w : Addr) : Memory :=
  (m.write (0x0100 + sp.toNat) (lo8 w)).write (0x0100 + (sp - 1#8).toNat) (hi8 w)

/-- `Push16(w)` (R33). -/
theorem push16_eq (w : Addr) (s : State) :
    push16 w s = .ok 0 ((s.setMem (pushed16 s.mem s.sp w)).setSp (s.sp - 2#8)) := by
  have h : s.sp - 1#8 - 1#8 = s.sp - 2#8 := by bv_omega
  simp only [push16, push_eq, Run.andThen_ok, State.setSp_sp, State.setSp_mem, State.setMem_mem, h]
  rfl

/-- The value `Pop16()` answers from the stack pointer `sp` (R34). -/
def popped16 (m : Memory) (sp : Byte) : Addr :=
  wordOf (m.read (0x0100 + (sp + 1#8).toNat)) (m.read (0x0100 + (sp + 2#8).toNat))

/-- `Pop16()` (R34). -/
theorem pop16_eq (s : State) : pop16 s = .ok (popped16 s.mem s.sp) (s.setSp (s.sp + 2#8)) := by
  have h : s.sp + 1#8 + 1#8 = s.sp + 2#8 := by bv_omega
  simp only [pop16, pop_eq, Run.andThen_ok, State.setSp_sp, State.setSp_mem, h]
  rfl

theorem stored_breakVector : (route breakVector).stored = true ∧ (route (breakVector + 1#16)).stored = true := by
  decide

/-- The address the break vector holds. -/
def breakTarget (s : State) : Addr :=
  wordOf (s.mem.read (cellOf s.prgSize 0xFFFF#16)) (s.mem.read (cellOf s.prgSize 0xFFFE#16))

theorem cellOf_vector_ge (z : PrgSize) {a : Addr} (h : 0x8000 ≤ a.toNat) : 0x8000 ≤ cellOf z a := by
  rw [cellOf_prgRom z h]; omega

/-- Taking a break (44_break_return.md R170): it always completes. -/
theorem enterBreak_eq (s : State) :
    enterBreak s = .ok 0 { s with
      mem := (pushed16 s.mem s.sp s.pc).write (0x0100 + (s.sp - 2#8).toNat) (pushedStatus s.p)
      sp := s.sp - 3#8, pc := breakTarget s, p := setFlag .interruptDisable true s.p } := by
  have h : s.sp - 2#8 - 1#8 = s.sp - 3#8 := by bv_omega
  have hv : ∀ a : Addr, 0x8000 ≤ a.toNat → ∀ (sp : Byte), 0x0100 + sp.toNat ≠ cellOf s.prgSize a := by
    intro a ha sp
    have := cellOf_vector_ge s.prgSize ha
    have := sp.isLt
    omega
  simp only [enterBreak, push16_eq, push_eq, Run.andThen_ok, read16_stored _ stored_breakVector.1
    stored_breakVector.2]
  simp only [State.setSp_sp, State.setSp_mem, State.setMem_mem, State.setSp_prgSize, State.setMem_prgSize,
    pushed16, Memory.read_write_other _ _ (hv _ (show 0x8000 ≤ breakVector.toNat by decide) _),
    Memory.read_write_other _ _ (hv _ (show 0x8000 ≤ (breakVector + 1#16).toNat by decide) _), h]
  rfl

/-- Returning from a break (44_break_return.md R171): it always completes. -/
theorem leaveBreak_eq (s : State) :
    leaveBreak s = .ok 0 { s with
      p := poppedStatus (s.mem.read (0x0100 + (s.sp + 1#8).toNat))
      pc := popped16 s.mem (s.sp + 1#8), sp := s.sp + 3#8 } := by
  have h : s.sp + 1#8 + 2#8 = s.sp + 3#8 := by bv_omega
  simp only [leaveBreak, pop_eq, pop16_eq, Run.andThen_ok, State.setP_sp, State.setP_mem, State.setSp_sp,
    State.setSp_mem, h]
  rfl

/-- The two slots below one another are different cells. -/
theorem slot_ne (sp : Byte) {k : Byte} (hk : k ≠ 0#8) : 0x0100 + (sp - k).toNat ≠ 0x0100 + sp.toNat := by
  intro h
  apply hk
  have : sp - k = sp := BitVec.eq_of_toNat_eq (by omega)
  bv_omega

/-- Two slots at different distances below one stack pointer are different cells. -/
theorem slot_ne_slot (sp : Byte) {j k : Byte} (h : j ≠ k) :
    0x0100 + (sp - j).toNat ≠ 0x0100 + (sp - k).toNat := by
  intro e
  apply h
  have : sp - j = sp - k := BitVec.eq_of_toNat_eq (by omega)
  bv_omega

theorem cellOf_slot (z : PrgSize) (sp : Byte) : cellOf z (slot sp) = 0x0100 + sp.toNat := by
  rw [← stackAddr_eq_slot, cellOf_stackAddr]

/-- Storage stands behind every stack slot. -/
theorem peek_slot (s : State) (sp : Byte) : s.peek (slot sp) = some (s.mem.read (0x0100 + sp.toNat)) := by
  rw [← stackAddr_eq_slot, State.peek_stored (stored_stackAddr sp), cellOf_stackAddr]

end Sys2Proof.Machine
end

