-- ==== Sys2Proof/Laws/Step.lean ====
section
/-! SUPPORT. What a whole instruction and a whole step can do, said once: the memory is reached by stores into
writable cells, the registers no handler writes are kept, and an abandoned step has stored nothing. -/

namespace Sys2Proof.Machine

/-- The memory `m'` is reached from `m` by stores to writable addresses. -/
inductive StoresOnly (z : PrgSize) (m : Memory) : Memory → Prop where
  | refl : StoresOnly z m m
  | store {m' : Memory} (h : StoresOnly z m m') {a : Addr} (ha : (route a).writable = true) (v : Byte) :
      StoresOnly z m (m'.write (cellOf z a) v)

theorem StoresOnly.one {z : PrgSize} {m : Memory} {a : Addr} (ha : (route a).writable = true) (v : Byte) :
    StoresOnly z m (m.write (cellOf z a) v) := .store .refl ha v

theorem StoresOnly.trans {z : PrgSize} {m m' m'' : Memory} (h : StoresOnly z m m') (k : StoresOnly z m' m'') :
    StoresOnly z m m'' := by
  induction k with
  | refl => exact h
  | store _ ha v ih => exact .store ih ha v

theorem StoresOnly.slot {z : PrgSize} {m m' : Memory} (h : StoresOnly z m m') (sp : Byte) (v : Byte) :
    StoresOnly z m (m'.write (0x0100 + sp.toNat) v) := by
  rw [← cellOf_stackAddr z sp]
  exact .store h (writable_stackAddr sp) v

theorem StoresOnly.wf {z : PrgSize} {m m' : Memory} (h : StoresOnly z m m') (hm : m.wf = true) :
    m'.wf = true := by
  induction h with
  | refl => exact hm
  | store _ _ v ih => exact Memory.wf_write _ v ih

/-- Only cells that exist are listed afterwards. -/
theorem StoresOnly.cells {z : PrgSize} {m m' : Memory} (h : StoresOnly z m m')
    (hm : ∀ c ∈ m, isCell z c.1 = true) : ∀ c ∈ m', isCell z c.1 = true := by
  induction h with
  | refl => exact hm
  | store _ ha v ih =>
    intro c hc
    rcases Memory.mem_write hc with hc | rfl
    · exact ih c hc
    · exact isCell_cellOf z (Region.stored_of_writable ha)

/-- The cells of the image keep their bytes. -/
theorem StoresOnly.image {z : PrgSize} {m m' : Memory} (h : StoresOnly z m m') {k : Nat} (hk : 0x8000 ≤ k) :
    m'.read k = m.read k := by
  induction h with
  | refl => rfl
  | store _ ha v ih =>
    have := cellOf_lt_of_writable z ha
    rw [Memory.read_write_other _ v (by omega), ih]

/-- What the handlers of this hardware keep: Y, the cycle count during the step, the image size, the run status;
the record of facade accesses only grows; the memory changes by stores alone. -/
structure Kept (s t : State) : Prop where
  y : t.y = s.y
  cyc : t.cyc = s.cyc
  prgSize : t.prgSize = s.prgSize
  status : t.status = s.status
  gfxLog : s.gfxLog <+: t.gfxLog
  mem : StoresOnly s.prgSize s.mem t.mem

theorem Kept.of_external {s t : State} (h : OnlyExternal s t) : Kept s t :=
  ⟨h.y, h.cyc, h.prgSize, h.status, h.2, by rw [h.mem]; exact .refl⟩

theorem Kept.trans {s t u : State} (h : Kept s t) (k : Kept t u) : Kept s u :=
  ⟨k.y.trans h.y, k.cyc.trans h.cyc, k.prgSize.trans h.prgSize, k.status.trans h.status,
    h.gfxLog.trans k.gfxLog, h.mem.trans (h.prgSize ▸ k.mem)⟩

/-- What an abandoned part of a step leaves: nothing stored, the record only grown, and a reason of the spec. -/
structure Abandoned (s t : State) (why : Stop) : Prop where
  mem : t.mem = s.mem
  prgSize : t.prgSize = s.prgSize
  gfxLog : s.gfxLog <+: t.gfxLog
  reason : AccessStop why t ∨ ∃ a, why = .refuse (.prgRomWrite a) ∧ 0x8000 ≤ a.toNat

/-- A body of an instruction that does no more than this hardware's handlers do. -/
def Tame (f : State → Run Nat) : Prop :=
  ∀ s, (∀ e t, f s = .ok e t → Kept s t ∧ (e = 0 ∨ e = 513 + s.cyc % 2)) ∧
    ∀ why t, f s = .stop why t → Abandoned s t why

theorem Abandoned.of_reads {s t : State} {why : Stop} (h : OnlyExternal s t ∧ AccessStop why t) :
    Abandoned s t why :=
  ⟨h.1.mem, h.1.prgSize, h.1.2, .inl h.2⟩

theorem Tame.quiet {f : State → State} (h : ∀ s, Kept s (f s)) : Tame (Machine.quiet f) := fun s =>
  ⟨fun _ _ hk => by cases hk; exact ⟨h s, .inl rfl⟩, fun _ _ hk => by cases hk⟩

theorem Tame.memWrite (ea : Addr) (v : State → Byte) : Tame (fun s => Machine.memWrite ea (v s) s) := by
  intro s
  constructor
  · intro e t h
    rcases busWrite_ok h with ⟨hw, he, rfl⟩ | ⟨-, he, hx⟩
    · exact ⟨⟨rfl, rfl, rfl, rfl, List.prefix_refl _, .one hw _⟩, .inl he⟩
    · exact ⟨Kept.of_external hx, he⟩
  · intro why t h
    obtain ⟨hx, hr⟩ := busWrite_stop h
    refine ⟨hx.mem, hx.prgSize, hx.2, ?_⟩
    rcases hr with hr | ⟨hr, hp⟩
    · exact .inl hr
    · exact .inr ⟨ea, hr, route_prgRom.1 hp⟩

/-- A body that always completes without a stop. -/
theorem Tame.of_ok {f : State → Run Nat} {g : State → State} (hf : ∀ s, f s = .ok 0 (g s))
    (hg : ∀ s, Kept s (g s)) : Tame f := by
  intro s
  rw [hf]
  exact ⟨fun _ _ h => by cases h; exact ⟨hg s, .inl rfl⟩, fun _ _ h => by cases h⟩

theorem Tame.afterReads {α : Type} {f : State → Run α} {g : α → State → Run Nat} (hf : ReadsOnly f)
    (hg : ∀ v, Tame (g v)) : Tame (fun s => (f s).andThen g) := by
  intro s
  constructor
  · intro e t h
    obtain ⟨v, s1, h1, h2⟩ := Run.andThen_eq_ok.1 h
    have hx := (hf s).1 _ _ h1
    obtain ⟨hk, he⟩ := (hg v s1).1 _ _ h2
    exact ⟨(Kept.of_external hx).trans hk, by rwa [hx.cyc] at he⟩
  · intro why t h
    rcases Run.andThen_eq_stop.1 h with h1 | ⟨v, s1, h1, h2⟩
    · exact Abandoned.of_reads ((hf s).2 _ _ h1)
    · have hx := (hf s).1 _ _ h1
      obtain ⟨hm, hz, hl, hr⟩ := (hg v s1).2 _ _ h2
      exact ⟨hm.trans hx.mem, hz.trans hx.prgSize, hx.2.trans hl, hr⟩

/-- The resolver only reads (40_step_and_addressing.md R114). -/
theorem ReadsOnly.effectiveAddress (o : EaMode) : ReadsOnly (Machine.effectiveAddress o) := by
  have direct : ∀ f : State → Addr, ReadsOnly (fun s => .ok (f s) s) := fun _ s =>
    ⟨fun _ _ h => by cases h; exact .refl s, fun _ _ h => by cases h⟩
  cases o with
  | indirectX d8 => exact fun s => ReadsOnly.read16 _ s
  | indirectY d8 =>
    exact (ReadsOnly.read16 (zext16 d8)).andThen fun base => direct fun s => base + zext16 s.y
  | absoluteIndirect a16 =>
    exact (ReadsOnly.busRead a16).andThen fun _ => (ReadsOnly.busRead _).andThen fun _ => ReadsOnly.ok _
  | _ => exact direct _

/-- The body of an instruction with an effective address. -/
theorem Tame.operandBody {o : EaMode} {handler : Addr → Byte → State → Run Nat}
    (h : ∀ ea m, Tame (handler ea m)) :
    Tame (fun s => (Machine.effectiveAddress o s).andThen fun ea s => (busRead ea s).andThen fun m s =>
      handler ea m s) :=
  Tame.afterReads (ReadsOnly.effectiveAddress o) fun ea => Tame.afterReads (ReadsOnly.busRead ea) (h ea)

/-- Every instruction is a tame body of its length: this is all a later proof needs of the 49 meanings. -/
theorem exec_tame (i : Instr) : ∃ body, Tame body ∧ ∀ s, exec i s = instruction i.length body s := by
  have load : ∀ {f : Byte → State → State}, (∀ m s, Kept s (f m s)) → ∀ m, Tame (quiet (f m)) :=
    fun h m => Tame.quiet (h m)
  have hAdc : ∀ m s, Kept s (addWithCarry m s) := fun _ _ =>
    ⟨rfl, rfl, rfl, rfl, List.prefix_refl _, .refl⟩
  have hBit : ∀ m s, Kept s (bitTest m s) := fun _ _ => ⟨rfl, rfl, rfl, rfl, List.prefix_refl _, .refl⟩
  have hLda : ∀ m s, Kept s (loadA m s) := fun _ _ => ⟨rfl, rfl, rfl, rfl, List.prefix_refl _, .refl⟩
  have hLdx : ∀ m s, Kept s (loadX m s) := fun _ _ => ⟨rfl, rfl, rfl, rfl, List.prefix_refl _, .refl⟩
  have hSta : ∀ ea m, Tame (storeA ea m) := fun ea _ => Tame.memWrite ea State.a
  have hStx : ∀ ea m, Tame (storeX ea m) := fun ea _ => Tame.memWrite ea State.x
  have hJmp : ∀ ea m, Tame (jump ea m) := fun _ _ => Tame.quiet fun _ =>
    ⟨rfl, rfl, rfl, rfl, List.prefix_refl _, .refl⟩
  have hBr : ∀ f w ea m, Tame (branchIf f w ea m) := fun f w ea m => Tame.quiet fun s => by
    split
    · exact ⟨rfl, rfl, rfl, rfl, List.prefix_refl _, .refl⟩
    · exact Kept.of_external (OnlyExternal.refl s)
  have hFlag : ∀ f b, Tame (quiet (State.setFlag f b)) := fun _ _ => Tame.quiet fun _ =>
    ⟨rfl, rfl, rfl, rfl, List.prefix_refl _, .refl⟩
  have hCall : ∀ ea m, Tame (call ea m) := fun ea _ => Tame.of_ok
    (g := fun s => ((s.setMem (pushed16 s.mem s.sp s.pc)).setSp (s.sp - 2#8)).setPc ea)
    (fun s => by simp [call, push16_eq])
    (fun s => ⟨rfl, rfl, rfl, rfl, List.prefix_refl _, (StoresOnly.refl.slot _ _).slot _ _⟩)
  have hRts : Tame returnFromCall := Tame.of_ok
    (g := fun s => (s.setSp (s.sp + 2#8)).setPc (popped16 s.mem s.sp))
    (fun s => by simp [returnFromCall, pop16_eq])
    (fun s => ⟨rfl, rfl, rfl, rfl, List.prefix_refl _, .refl⟩)
  have hBrk : Tame enterBreak := Tame.of_ok enterBreak_eq fun s =>
    ⟨rfl, rfl, rfl, rfl, List.prefix_refl _, ((StoresOnly.refl.slot _ _).slot _ _).slot _ _⟩
  have hRti : Tame leaveBreak := Tame.of_ok leaveBreak_eq fun s =>
    ⟨rfl, rfl, rfl, rfl, List.prefix_refl _, .refl⟩
  cases i with
  | adcImm d => exact ⟨_, load hAdc d, fun _ => rfl⟩
  | ldaImm d => exact ⟨_, load hLda d, fun _ => rfl⟩
  | ldxImm d => exact ⟨_, load hLdx d, fun _ => rfl⟩
  | adcZp d | adcZpX d | adcAbs d | adcAbsX d | adcAbsY d | adcIndX d | adcIndY d =>
    exact ⟨_, Tame.operandBody fun _ => load hAdc, fun _ => rfl⟩
  | bitZp d | bitAbs d => exact ⟨_, Tame.operandBody fun _ => load hBit, fun _ => rfl⟩
  | ldaZp d | ldaZpX d | ldaAbs d | ldaAbsX d | ldaAbsY d | ldaIndX d | ldaIndY d =>
    exact ⟨_, Tame.operandBody fun _ => load hLda, fun _ => rfl⟩
  | ldxZp d | ldxZpY d | ldxAbs d | ldxAbsY d =>
    exact ⟨_, Tame.operandBody fun _ => load hLdx, fun _ => rfl⟩
  | staZp d | staZpX d | staAbs d | staAbsX d | staAbsY d | staIndX d | staIndY d =>
    exact ⟨_, Tame.operandBody hSta, fun _ => rfl⟩
  | stxZp d | stxZpY d | stxAbs d => exact ⟨_, Tame.operandBody hStx, fun _ => rfl⟩
  | jmpAbs d | jmpInd d => exact ⟨_, Tame.operandBody hJmp, fun _ => rfl⟩
  | jsr d => exact ⟨_, Tame.operandBody hCall, fun _ => rfl⟩
  | bcs d | bcc d | beq d | bne d | bvs d | bvc d | bpl d =>
    exact ⟨_, Tame.operandBody (hBr _ _), fun _ => rfl⟩
  | rts => exact ⟨_, hRts, fun _ => rfl⟩
  | brk => exact ⟨_, hBrk, fun _ => rfl⟩
  | rti => exact ⟨_, hRti, fun _ => rfl⟩
  | sec | clc => exact ⟨_, hFlag _ _, fun _ => rfl⟩
  | nop => exact ⟨_, Tame.quiet fun s => Kept.of_external (OnlyExternal.refl s), fun _ => rfl⟩

/-- An instruction that answers a next state: it kept what handlers keep, and the cycle count went on by one
step's cost, and 513 or 514 more at most (40_step_and_addressing.md R113). -/
theorem exec_next {i : Instr} {s t : State} (h : exec i s = .next t) :
    ∃ u e, Kept s u ∧ (e = 0 ∨ e = 513 + s.cyc % 2) ∧ t = u.setCyc (s.cyc + Config.stepCycles + e) := by
  obtain ⟨body, hb, he⟩ := exec_tame i
  rw [he, instruction] at h
  cases hr : body (s.advance i.length) with
  | ok e u =>
    rw [hr] at h
    cases h
    obtain ⟨hk, hc⟩ := (hb _).1 _ _ hr
    exact ⟨u, e, (Kept.mk rfl rfl rfl rfl (List.prefix_refl _) .refl : Kept s (s.advance i.length)).trans hk,
      hc, rfl⟩
  | stop why u =>
    rw [hr] at h
    cases why <;> cases h

/-- An instruction that faults: the halted machine has the registers and the memory of the start. -/
theorem exec_fault {i : Instr} {s : State} {f : Fault} (h : exec i s = .fault f) :
    ∃ u, Abandoned s u (.raise f.error) ∧ f = f.error.toFault (u.abandon s f.error) := by
  obtain ⟨body, hb, he⟩ := exec_tame i
  rw [he, instruction] at h
  cases hr : body (s.advance i.length) with
  | ok e u => rw [hr] at h; cases h
  | stop why u =>
    rw [hr] at h
    cases why with
    | refuse r => cases h
    | raise e =>
      simp only [Run.finish, stopped, Host.Outcome.fault.injEq] at h
      subst h
      refine ⟨u, ?_, by simp⟩
      obtain ⟨hm, hz, hl, hw⟩ := (hb _).2 _ _ hr
      exact ⟨hm, hz, hl, by simpa using hw⟩

/-- An instruction is refused for a write into the image alone (20_memory.md R65). -/
theorem exec_refused {i : Instr} {s : State} {r : Refusal} (h : exec i s = .refused r) :
    ∃ a, r = .prgRomWrite a ∧ 0x8000 ≤ a.toNat := by
  obtain ⟨body, hb, he⟩ := exec_tame i
  rw [he, instruction] at h
  cases hr : body (s.advance i.length) with
  | ok e u => rw [hr] at h; cases h
  | stop why u =>
    rw [hr] at h
    cases why with
    | raise e => cases h
    | refuse r' =>
      cases h
      rcases ((hb _).2 _ _ hr).reason with hs | ⟨a, ha, hk⟩
      · rcases hs with ⟨_, hs, _⟩ | ⟨hs, _⟩ <;> cases hs
      · exact ⟨a, by injection ha, hk⟩

/-! ### The step -/

/-- Everything an answered fetch can do: the opcode byte has an entry, and only what stands outside the core
changed. -/
theorem fetch_ok {s t : State} {i : Instr} (h : fetch s = .ok i t) : OnlyExternal s t := by
  obtain ⟨op, s1, h1, h2⟩ := Run.andThen_eq_ok.1 h
  have hx := busRead_ok_external h1
  split at h2
  · cases h2
  · cases h2; exact hx
  · obtain ⟨d, s2, h3, h4⟩ := Run.andThen_eq_ok.1 h2
    cases h4; exact hx.trans (busRead_ok_external h3)
  · obtain ⟨d, s2, h3, h4⟩ := Run.andThen_eq_ok.1 h2
    cases h4; exact hx.trans ((ReadsOnly.read16 _ _).1 _ _ h3)

/-- Everything a fetch that stops can do. -/
theorem fetch_stop {s t : State} {why : Stop} (h : fetch s = .stop why t) :
    OnlyExternal s t ∧
      (AccessStop why t ∨ ∃ op, why = .raise (.unimplementedOpcode op) ∧ opcodeShape op = none) := by
  rcases Run.andThen_eq_stop.1 h with h1 | ⟨op, s1, h1, h2⟩
  · exact ⟨(busRead_stop h1).1, .inl (busRead_stop h1).2⟩
  have hx := busRead_ok_external h1
  split at h2
  · rename_i hn; cases h2; exact ⟨hx, .inr ⟨op, rfl, hn⟩⟩
  · cases h2
  · rcases Run.andThen_eq_stop.1 h2 with h3 | ⟨d, s2, -, h4⟩
    · exact ⟨hx.trans (busRead_stop h3).1, .inl (busRead_stop h3).2⟩
    · cases h4
  · rcases Run.andThen_eq_stop.1 h2 with h3 | ⟨d, s2, -, h4⟩
    · obtain ⟨k, hw⟩ := (ReadsOnly.read16 _ _).2 _ _ h3
      exact ⟨hx.trans k, .inl hw⟩
    · cases h4

/-- A step that answers a next state was taken by a running machine: it fetched an instruction and ran it. -/
theorem step_next {s t : State} (h : step s = .next t) :
    s.status = .running ∧ ∃ i u, fetch s = .ok i u ∧ OnlyExternal s u ∧ exec i u = .next t := by
  unfold step at h
  split at h
  · cases h
  · rename_i hs
    split at h
    · rename_i hf
      exact ⟨hs, _, _, hf, fetch_ok hf, h⟩
    · rename_i why _ _
      cases why <;> cases h

/-- An error raised after nothing but reads halts the machine of the step's start, with the record and the free values
reached at the raise. -/
theorem stopped_raise {s t : State} (h : OnlyExternal s t) (e : RuntimeError) :
    stopped (.raise e) s t =
      .fault (e.toFault { s with gfxLog := t.gfxLog, draws := t.draws, status := .halted e }) := by
  rw [h.1]
  rfl

/-- A step whose fetch raises. -/
theorem step_fetch_raise {s t : State} {e : RuntimeError} (hs : s.status = .running)
    (h : fetch s = .stop (.raise e) t) :
    step s = .fault (e.toFault { s with gfxLog := t.gfxLog, draws := t.draws, status := .halted e }) := by
  simp only [step, hs, h]
  exact stopped_raise (fetch_stop h).1 e

/-- Everything a step that ends in a fault can do: nothing stored, the record only grown, a reason of the spec. -/
theorem step_fault {s : State} {f : Fault} (hs : s.status = .running) (h : step s = .fault f) :
    ∃ u : State, u.mem = s.mem ∧ u.prgSize = s.prgSize ∧ s.gfxLog <+: u.gfxLog ∧
      f = f.error.toFault (u.abandon s f.error) ∧
      (AccessStop (.raise f.error) u ∨ ∃ op, f.error = .unimplementedOpcode op ∧ opcodeShape op = none) := by
  simp only [step, hs] at h
  split at h
  · rename_i i s1 hf
    have hx := fetch_ok hf
    obtain ⟨u, hu, he⟩ := exec_fault h
    refine ⟨u, hu.mem.trans hx.mem, hu.prgSize.trans hx.prgSize, hx.2.trans hu.gfxLog, ?_, ?_⟩
    · rw [he, RuntimeError.toFault_error]
      unfold State.abandon
      rw [hx.a, hx.x, hx.y, hx.pc, hx.sp, hx.p, hx.cyc]
    · rcases hu.reason with h | ⟨a, h, -⟩
      · exact .inl h
      · cases h
  · rename_i why s1 hf
    obtain ⟨hx, hr⟩ := fetch_stop hf
    cases why with
    | refuse r => cases h
    | raise e =>
      simp only [stopped, Host.Outcome.fault.injEq] at h
      subst h
      refine ⟨s1, hx.mem, hx.prgSize, hx.2, by rw [RuntimeError.toFault_error], ?_⟩
      rw [RuntimeError.toFault_error]
      rcases hr with h | ⟨op, h, ho⟩
      · exact .inl h
      · cases h
        exact .inr ⟨op, rfl, ho⟩

end Sys2Proof.Machine
end

