-- ==== Sys2Proof/Laws/Operands.lean ====
section
/-! SUPPORT. An instruction whose operand resolves: its outcome is its handler's, ended; and the flag laws. -/

namespace Sys2Proof.Machine

/-- Resolve changes nothing of the core but the pc (spec/40_step_and_addressing.md R114). -/
theorem Resolves.external {o : EaMode} {s u : State} {ea : Addr} {m : Byte} (h : Resolves o s ea m u) :
    OnlyExternal (s.advance o.length) u := by
  obtain ⟨s1, h1, h2⟩ := h
  exact ((ReadsOnly.effectiveAddress o _).1 _ _ h1).trans (busRead_ok_external h2)

/-- The machine Resolve leaves, written out. -/
theorem Resolves.state {o : EaMode} {s u : State} {ea : Addr} {m : Byte} (h : Resolves o s ea m u) :
    u = { s with pc := s.pc + BitVec.ofNat 16 o.length, gfxLog := u.gfxLog, draws := u.draws } :=
  h.external.1

/-- An instruction whose operand resolves runs its handler and ends. -/
theorem withOperand_resolves {o : EaMode} {s u : State} {ea : Addr} {m : Byte} (h : Resolves o s ea m u)
    (f : Addr → Byte → State → Run Nat) : withOperand o f s = (f ea m u).finish s := by
  obtain ⟨s1, h1, h2⟩ := h
  simp [withOperand, instruction, h1, h2]

/-- The computation of an effective address can stop in AbsoluteIndirect only: every other pointer stands in RAM. -/
theorem effectiveAddress_stop {o : EaMode} {s u : State} {why : Stop}
    (h : effectiveAddress o s = .stop why u) : ∃ a16, o = .absoluteIndirect a16 := by
  have ram : ∀ a : Addr, a.toNat < 0x1FFF →
      (route a).stored = true ∧ (route (a + 1#16)).stored = true := by
    intro a ha
    have h1 : (a + 1#16).toNat < 0x2000 := by
      rw [BitVec.toNat_add]
      simp
      omega
    rw [route_ram.2 (by omega), route_ram.2 h1]
    exact ⟨rfl, rfl⟩
  cases o with
  | absoluteIndirect a16 => exact ⟨a16, rfl⟩
  | indirectX d8 =>
    have hz : (zpIndex d8 s.x).toNat < 0x1FFF := by
      simp only [zpIndex, Config.zpWrapModulus, BitVec.toNat_ofNat]
      omega
    simp only [effectiveAddress, read16_stored s (ram _ hz).1 (ram _ hz).2] at h
    cases h
  | indirectY d8 =>
    have hz : (zext16 d8).toNat < 0x1FFF := by
      have := d8.isLt
      simp only [zext16, BitVec.toNat_setWidth]
      omega
    simp only [effectiveAddress, read16_stored s (ram _ hz).1 (ram _ hz).2, Run.andThen_ok] at h
    cases h
  | _ => cases h

/-- An instruction whose effective address cannot be computed. -/
theorem withOperand_pointer_raise {o : EaMode} {s t : State} {e : RuntimeError}
    (h : effectiveAddress o (s.advance o.length) = .stop (.raise e) t)
    (f : Addr → Byte → State → Run Nat) : withOperand o f s =
      .fault (e.toFault { s with gfxLog := t.gfxLog, draws := t.draws, status := .halted e }) := by
  have hx := ((ReadsOnly.effectiveAddress o _).2 _ _ h).1
  simp only [withOperand, instruction, h, Run.andThen_stop, Run.finish, stopped]
  rw [hx.1]
  rfl

/-- An instruction whose operand cannot be read at its effective address. -/
theorem withOperand_operand_raise {o : EaMode} {s u t : State} {ea : Addr} {e : RuntimeError}
    (h : effectiveAddress o (s.advance o.length) = .ok ea u) (hr : busRead ea u = .stop (.raise e) t)
    (f : Addr → Byte → State → Run Nat) : withOperand o f s =
      .fault (e.toFault { s with gfxLog := t.gfxLog, draws := t.draws, status := .halted e }) := by
  have hx := ((ReadsOnly.effectiveAddress o _).1 _ _ h).trans (busRead_stop hr).1
  simp only [withOperand, instruction, h, hr, Run.andThen_ok, Run.andThen_stop, Run.finish, stopped]
  rw [hx.1]
  rfl

/-- An instruction that completes has resolved its operand. -/
theorem withOperand_next {o : EaMode} {f : Addr → Byte → State → Run Nat} {s t : State}
    (h : withOperand o f s = .next t) :
    ∃ ea m u, Resolves o s ea m u ∧ (f ea m u).finish s = .next t := by
  unfold withOperand instruction at h
  cases h1 : effectiveAddress o (s.advance o.length) with
  | stop why u => simp only [h1, Run.andThen_stop] at h; cases why <;> cases h
  | ok ea s1 =>
    cases h2 : busRead ea s1 with
    | stop why u => simp only [h1, h2, Run.andThen_ok, Run.andThen_stop] at h; cases why <;> cases h
    | ok m u =>
      simp only [h1, h2, Run.andThen_ok] at h
      exact ⟨ea, m, u, ⟨s1, h1, h2⟩, h⟩

/-- An instruction that loads, its operand resolved. -/
theorem withLoad_resolves {o : EaMode} {s u : State} {ea : Addr} {m : Byte} (h : Resolves o s ea m u)
    (f : Byte → State → State) :
    withLoad o f s = .next ((f m u).setCyc (s.cyc + Config.stepCycles)) := by
  rw [withLoad, withOperand_resolves h]; rfl

/-- Everything an instruction that loads can do. -/
theorem withLoad_next {o : EaMode} {f : Byte → State → State} {s t : State} (h : withLoad o f s = .next t) :
    ∃ ea m u, Resolves o s ea m u ∧ t = (f m u).setCyc (s.cyc + Config.stepCycles) := by
  obtain ⟨ea, m, u, hr, hf⟩ := withOperand_next h
  cases hf
  exact ⟨ea, m, u, hr, rfl⟩

/-- Everything an instruction that hands one byte to the bus can do. -/
theorem withStore_next {o : EaMode} {f : Addr → Byte → State → Run Nat} {s t : State} (g : State → Byte)
    (hfg : ∀ ea m u, f ea m u = memWrite ea (g u) u) (h : withOperand o f s = .next t) :
    ∃ ea m u v e, Resolves o s ea m u ∧ busWrite ea (g u) u.cyc u = .ok e v ∧
      t = v.setCyc (s.cyc + Config.stepCycles + e) := by
  obtain ⟨ea, m, u, hr, hf⟩ := withOperand_next h
  rw [hfg, memWrite] at hf
  cases hw : busWrite ea (g u) u.cyc u with
  | ok e v =>
    rw [hw] at hf
    cases hf
    exact ⟨ea, m, u, v, e, hr, hw, rfl⟩
  | stop why v =>
    rw [hw] at hf
    cases why <;> cases hf

/-- Which handler a store runs: the register's byte is handed to the bus. -/
theorem storeForms_exec {d8 : Byte} {a16 : Addr} {s : State} {f : Instr × EaMode × Byte}
    (hf : f ∈ storeForms d8 a16 s) :
    ∃ g : State → Byte, f.2.2 = g s ∧ (∀ u : State, u.a = s.a → u.x = s.x → g u = g s) ∧
      exec f.1 s = withOperand f.2.1 (fun ea _ u => memWrite ea (g u) u) s := by
  simp only [storeForms, staForms, stxForms, List.map_cons, List.map_nil, List.cons_append, List.nil_append,
    List.mem_cons, List.not_mem_nil, or_false] at hf
  rcases hf with rfl | rfl | rfl | rfl | rfl | rfl | rfl | rfl | rfl | rfl
  all_goals first
    | exact ⟨State.a, rfl, fun _ h _ => h, rfl⟩
    | exact ⟨State.x, rfl, fun _ _ h => h, rfl⟩

/-- A store whose operand resolves is one bus write, ended. -/
theorem storeForms_resolves {d8 : Byte} {a16 : Addr} {s : State} {f : Instr × EaMode × Byte}
    (hf : f ∈ storeForms d8 a16 s) {u : State} {ea : Addr} {m : Byte} (hr : Resolves f.2.1 s ea m u) :
    exec f.1 s = (busWrite ea f.2.2 s.cyc u).finish s := by
  obtain ⟨g, h1, h2, h3⟩ := storeForms_exec hf
  rw [h3, withOperand_resolves hr, memWrite, h2 u hr.external.a hr.external.x, ← h1, hr.external.cyc]
  rfl

/-! ### The flags -/

theorem getFlag_setFlag_same (f : Flag) (b : Bool) (p : Byte) : getFlag f (setFlag f b p) = b := by
  cases f <;> cases b <;> revert p <;> decide

theorem getFlag_setFlag_other {f g : Flag} (h : g ≠ f) (b : Bool) (p : Byte) :
    getFlag g (setFlag f b p) = getFlag g p := by
  cases f <;> cases g <;> first | exact absurd rfl h | (cases b <;> revert p <;> decide)

@[simp] theorem getFlag_setFlag (f g : Flag) (b : Bool) (p : Byte) :
    getFlag g (setFlag f b p) = if g = f then b else getFlag g p := by
  split
  · rename_i h; rw [h, getFlag_setFlag_same]
  · rename_i h; exact getFlag_setFlag_other h b p

end Sys2Proof.Machine
end

