-- ==== Sys2Proof/Laws/PerInstr.lean ====
section
/-! SUPPORT. Statements for all instructions, one lemma per constructor of `Instr`: the encoded form. -/

namespace Sys2Proof.Laws.EncodedForm

/-- The encoding has the length of the instruction's mode (spec/30_encoding.md R92), the instruction is
well-formed, and its opcode byte stands in the Instruction Table with its mnemonic and mode (R94, R96). -/
def Statement (i : Instr) : Prop :=
  (encode i).length = i.length ∧ i.wellFormed = true ∧
    ∃ op rest, encode i = op :: rest ∧ ⟨op, i.mnemonic, i.mode⟩ ∈ instructionTable

/-- A row looked up in the table. -/
theorem row {d : Descriptor} (h : instructionTable.contains d = true) : d ∈ instructionTable :=
  List.contains_iff_mem.1 h

theorem adcImm (d8 : Byte) : Statement (.adcImm d8) := ⟨rfl, rfl, _, _, rfl, row rfl⟩

theorem adcZp (d8 : Byte) : Statement (.adcZp d8) := ⟨rfl, rfl, _, _, rfl, row rfl⟩

theorem adcZpX (d8 : Byte) : Statement (.adcZpX d8) := ⟨rfl, rfl, _, _, rfl, row rfl⟩

theorem adcAbs (a16 : Addr) : Statement (.adcAbs a16) := ⟨rfl, rfl, _, _, rfl, row rfl⟩

theorem adcAbsX (a16 : Addr) : Statement (.adcAbsX a16) := ⟨rfl, rfl, _, _, rfl, row rfl⟩

theorem adcAbsY (a16 : Addr) : Statement (.adcAbsY a16) := ⟨rfl, rfl, _, _, rfl, row rfl⟩

theorem adcIndX (d8 : Byte) : Statement (.adcIndX d8) := ⟨rfl, rfl, _, _, rfl, row rfl⟩

theorem adcIndY (d8 : Byte) : Statement (.adcIndY d8) := ⟨rfl, rfl, _, _, rfl, row rfl⟩

theorem bitZp (d8 : Byte) : Statement (.bitZp d8) := ⟨rfl, rfl, _, _, rfl, row rfl⟩

theorem bitAbs (a16 : Addr) : Statement (.bitAbs a16) := ⟨rfl, rfl, _, _, rfl, row rfl⟩

theorem ldaImm (d8 : Byte) : Statement (.ldaImm d8) := ⟨rfl, rfl, _, _, rfl, row rfl⟩

theorem ldaZp (d8 : Byte) : Statement (.ldaZp d8) := ⟨rfl, rfl, _, _, rfl, row rfl⟩

theorem ldaZpX (d8 : Byte) : Statement (.ldaZpX d8) := ⟨rfl, rfl, _, _, rfl, row rfl⟩

theorem ldaAbs (a16 : Addr) : Statement (.ldaAbs a16) := ⟨rfl, rfl, _, _, rfl, row rfl⟩

theorem ldaAbsX (a16 : Addr) : Statement (.ldaAbsX a16) := ⟨rfl, rfl, _, _, rfl, row rfl⟩

theorem ldaAbsY (a16 : Addr) : Statement (.ldaAbsY a16) := ⟨rfl, rfl, _, _, rfl, row rfl⟩

theorem ldaIndX (d8 : Byte) : Statement (.ldaIndX d8) := ⟨rfl, rfl, _, _, rfl, row rfl⟩

theorem ldaIndY (d8 : Byte) : Statement (.ldaIndY d8) := ⟨rfl, rfl, _, _, rfl, row rfl⟩

theorem ldxImm (d8 : Byte) : Statement (.ldxImm d8) := ⟨rfl, rfl, _, _, rfl, row rfl⟩

theorem ldxZp (d8 : Byte) : Statement (.ldxZp d8) := ⟨rfl, rfl, _, _, rfl, row rfl⟩

theorem ldxZpY (d8 : Byte) : Statement (.ldxZpY d8) := ⟨rfl, rfl, _, _, rfl, row rfl⟩

theorem ldxAbs (a16 : Addr) : Statement (.ldxAbs a16) := ⟨rfl, rfl, _, _, rfl, row rfl⟩

theorem ldxAbsY (a16 : Addr) : Statement (.ldxAbsY a16) := ⟨rfl, rfl, _, _, rfl, row rfl⟩

theorem staZp (d8 : Byte) : Statement (.staZp d8) := ⟨rfl, rfl, _, _, rfl, row rfl⟩

theorem staZpX (d8 : Byte) : Statement (.staZpX d8) := ⟨rfl, rfl, _, _, rfl, row rfl⟩

theorem staAbs (a16 : Addr) : Statement (.staAbs a16) := ⟨rfl, rfl, _, _, rfl, row rfl⟩

theorem staAbsX (a16 : Addr) : Statement (.staAbsX a16) := ⟨rfl, rfl, _, _, rfl, row rfl⟩

theorem staAbsY (a16 : Addr) : Statement (.staAbsY a16) := ⟨rfl, rfl, _, _, rfl, row rfl⟩

theorem staIndX (d8 : Byte) : Statement (.staIndX d8) := ⟨rfl, rfl, _, _, rfl, row rfl⟩

theorem staIndY (d8 : Byte) : Statement (.staIndY d8) := ⟨rfl, rfl, _, _, rfl, row rfl⟩

theorem stxZp (d8 : Byte) : Statement (.stxZp d8) := ⟨rfl, rfl, _, _, rfl, row rfl⟩

theorem stxZpY (d8 : Byte) : Statement (.stxZpY d8) := ⟨rfl, rfl, _, _, rfl, row rfl⟩

theorem stxAbs (a16 : Addr) : Statement (.stxAbs a16) := ⟨rfl, rfl, _, _, rfl, row rfl⟩

theorem jmpAbs (a16 : Addr) : Statement (.jmpAbs a16) := ⟨rfl, rfl, _, _, rfl, row rfl⟩

theorem jmpInd (a16 : Addr) : Statement (.jmpInd a16) := ⟨rfl, rfl, _, _, rfl, row rfl⟩

theorem jsr (a16 : Addr) : Statement (.jsr a16) := ⟨rfl, rfl, _, _, rfl, row rfl⟩

theorem rts : Statement (.rts) := ⟨rfl, rfl, _, _, rfl, row rfl⟩

theorem brk : Statement (.brk) := ⟨rfl, rfl, _, _, rfl, row rfl⟩

theorem rti : Statement (.rti) := ⟨rfl, rfl, _, _, rfl, row rfl⟩

theorem sec : Statement (.sec) := ⟨rfl, rfl, _, _, rfl, row rfl⟩

theorem clc : Statement (.clc) := ⟨rfl, rfl, _, _, rfl, row rfl⟩

theorem nop : Statement (.nop) := ⟨rfl, rfl, _, _, rfl, row rfl⟩

theorem bcs (d8 : Byte) : Statement (.bcs d8) := ⟨rfl, rfl, _, _, rfl, row rfl⟩

theorem bcc (d8 : Byte) : Statement (.bcc d8) := ⟨rfl, rfl, _, _, rfl, row rfl⟩

theorem beq (d8 : Byte) : Statement (.beq d8) := ⟨rfl, rfl, _, _, rfl, row rfl⟩

theorem bne (d8 : Byte) : Statement (.bne d8) := ⟨rfl, rfl, _, _, rfl, row rfl⟩

theorem bvs (d8 : Byte) : Statement (.bvs d8) := ⟨rfl, rfl, _, _, rfl, row rfl⟩

theorem bvc (d8 : Byte) : Statement (.bvc d8) := ⟨rfl, rfl, _, _, rfl, row rfl⟩

theorem bpl (d8 : Byte) : Statement (.bpl d8) := ⟨rfl, rfl, _, _, rfl, row rfl⟩

end Sys2Proof.Laws.EncodedForm
end

