-- ==== Sys2Proof/Laws/Reset.lean ====
section
/-! SUPPORT. The memory a Reset leaves (spec/70_reset_and_hazards.md R230 to R232), and the canonical form kept by
every operation that fills memory. -/

namespace Sys2Proof.Machine

/-- A filled memory: in canonical form, the filled cells as given, the others as before. -/
theorem Memory.fill_spec (ks : List Nat) (f : Nat → Byte) {m : Memory} (hm : m.wf = true) (i : Nat) :
    (Memory.fill ks f m).wf = true ∧ (Memory.fill ks f m).read i = if i ∈ ks then f i else m.read i := by
  induction ks with
  | nil => simp [Memory.fill, hm]
  | cons k ks ih =>
    refine ⟨Memory.wf_write _ _ ih.1, ?_⟩
    simp only [Memory.fill]
    by_cases hk : k = i
    · subst hk
      rw [Memory.read_write_same _ _ ih.1]
      simp
    · rw [Memory.read_write_other _ _ hk, ih.2]
      simp [List.mem_cons, Ne.symm hk]

theorem Memory.mem_fill (ks : List Nat) (f : Nat → Byte) (m : Memory) :
    ∀ c ∈ Memory.fill ks f m, c ∈ m ∨ c.1 ∈ ks := by
  induction ks with
  | nil => exact fun c h => .inl h
  | cons k ks ih =>
    intro c h
    rcases Memory.mem_write h with h | rfl
    · exact (ih c h).imp_right (List.mem_cons_of_mem _)
    · exact .inr List.mem_cons_self

/-- An image placed: in canonical form, the image's bytes from `base` on, the cells below as before. -/
theorem Memory.placeImage_spec (bs : List Byte) (base : Nat) {m : Memory} (hm : m.wf = true)
    (h : ∀ i, base ≤ i → m.read i = Config.unlistedByte) :
    (Memory.placeImage base bs m).wf = true ∧
      (∀ i, i < base → (Memory.placeImage base bs m).read i = m.read i) ∧
      ∀ j, (Memory.placeImage base bs m).read (base + j) = bs.getD j Config.unlistedByte := by
  induction bs generalizing base with
  | nil => exact ⟨hm, fun _ _ => rfl, fun j => by simpa [Memory.placeImage] using h _ (by omega)⟩
  | cons b bs ih =>
    obtain ⟨h1, h2, h3⟩ := ih (base + 1) (fun i hi => h i (by omega))
    refine ⟨Memory.wf_write _ _ h1, fun i hi => ?_, fun j => ?_⟩
    · simp only [Memory.placeImage]
      rw [Memory.read_write_other _ _ (by omega), h2 i (by omega)]
    · simp only [Memory.placeImage]
      cases j with
      | zero =>
        simp only [Nat.add_zero]
        rw [Memory.read_write_same _ _ h1]
        rfl
      | succ j =>
        rw [Memory.read_write_other _ _ (by omega), show base + (j + 1) = base + 1 + j by omega, h3]
        simp

theorem Memory.mem_placeImage (bs : List Byte) (base : Nat) (m : Memory) :
    ∀ c ∈ Memory.placeImage base bs m, c ∈ m ∨ (base ≤ c.1 ∧ c.1 < base + bs.length) := by
  induction bs generalizing base with
  | nil => exact fun c h => .inl h
  | cons b bs ih =>
    intro c h
    rcases Memory.mem_write h with h | rfl
    · rcases ih (base + 1) c h with h | h
      · exact .inl h
      · exact .inr (by simp; omega)
    · exact .inr (by simp)

theorem mem_volatileCells {i : Nat} : i ∈ volatileCells ↔
    i < 0x0800 ∨ (0x4000 ≤ i ∧ i < 0x4021 ∧ i ≠ 0x4014) ∨ (0x6000 ≤ i ∧ i < 0x8000) := by
  simp only [volatileCells, List.mem_append, List.mem_range, List.mem_range'_1]
  omega

/-- The memory at a Reset is in canonical form. -/
theorem launchMemory_wf (prg : List Byte) (f : Nat → Byte) : (launchMemory prg f).wf = true :=
  (Memory.fill_spec _ _ (Memory.placeImage_spec prg 0x8000 (m := []) rfl fun _ _ => rfl).1 0).1

/-- RAM, IO and CRAM hold whatever they hold. -/
theorem launchMemory_volatile (prg : List Byte) (f : Nat → Byte) {i : Nat} (h : i ∈ volatileCells) :
    (launchMemory prg f).read i = f i := by
  rw [launchMemory,
    (Memory.fill_spec _ _ (Memory.placeImage_spec prg 0x8000 (m := []) rfl fun _ _ => rfl).1 i).2, if_pos h]

/-- The image stands in its cells. -/
theorem launchMemory_image (prg : List Byte) (f : Nat → Byte) (j : Nat) :
    (launchMemory prg f).read (0x8000 + j) = prg.getD j Config.unlistedByte := by
  have hp := Memory.placeImage_spec prg 0x8000 (m := []) rfl fun _ _ => rfl
  rw [launchMemory, (Memory.fill_spec _ _ hp.1 _).2, if_neg (by rw [mem_volatileCells]; omega), hp.2.2]

section boot
variable (prg : List Byte) (size : PrgSize) (r : ResetParams) (f : Nat → Byte) (before : State)

theorem bootState_mem : (bootState prg size r f before).mem = launchMemory prg f := by
  unfold bootState
  dsimp only
  rw [State.setPc_mem]

theorem bootState_prgSize : (bootState prg size r f before).prgSize = size := by
  unfold bootState
  dsimp only
  rw [State.setPc_prgSize]

theorem bootState_pc : (bootState prg size r f before).pc =
    r.pcOverride.getD ((bootState prg size r f before).vectorAt resetVector) := by
  have h : ∀ (a v : Addr) (s : State), (s.setPc v).vectorAt a = s.vectorAt a := fun _ _ _ => rfl
  unfold bootState
  dsimp only
  rw [State.setPc_pc, h]

/-- The machine a Reset leaves lists only cells that exist, in canonical form. -/
theorem bootState_wf (hz : size.bytes = prg.length) : (bootState prg size r f before).wf = true := by
  simp only [State.wf, Bool.and_eq_true, List.all_eq_true, bootState_mem, bootState_prgSize]
  refine ⟨launchMemory_wf _ _, fun c hc => ?_⟩
  rcases Memory.mem_fill _ _ _ c hc with h | h
  · rcases Memory.mem_placeImage _ _ _ c h with h | h
    · cases h
    · simp only [isCell, hz]
      simp
      omega
  · rw [mem_volatileCells] at h
    have := size.bytes_pos
    simp only [isCell]
    simp
    omega

end boot

/-- Placing bytes where they are fetched keeps the canonical form. -/
theorem State.placeBytes_wf : ∀ (bs : List Byte) (a : Addr) {s : State}, s.mem.wf = true →
    (State.placeBytes bs a s).mem.wf = true
  | [], _, _, h => h
  | b :: bs, a, _, h => State.placeBytes_wf bs (a + 1#16) (Memory.wf_write _ b h)

end Sys2Proof.Machine
end

