-- ==== Sys2Proof/Tests/Slice0.lean ====
section
/-! SUPPORT. Tests: well-formedness refuses ill-formed terms, words written out from the spec's encodings decode,
single steps give the spec's worked results (spec/95_test_vectors.md, by table number; those marked "by hand" are
computed from the rules named), and each statement's hypotheses are met by a concrete machine. -/

open Sys2Proof Sys2Proof.Machine

namespace Sys2Proof.Tests

/-- The machine of the spec's vectors (95_test_vectors.md section 0): a half-size image with `code` at 0x8000, the
pc there, and the storage cells `cells`; a PRG byte that is not listed is 0x00 here. -/
def machine (code : List Byte) (cells : List Host.Cell) : State :=
  { State.reset with
    pc := 0x8000#16, prgSize := .half
    mem := Memory.placeImage 0x8000 code (cells.foldr (fun c m => m.write c.1 c.2) []) }

/-- What a step that completes leaves. -/
def result {α : Type} (f : State → α) : Outcome → Option α
  | .next t => some (f t)
  | .fault _ | .refused _ => none

/-- What a step that raises reports, and a part of the machine it leaves. -/
def raised {α : Type} (f : State → α) : Outcome → Option (RuntimeError × α)
  | .fault e => some (e.error, f e.post)
  | .next _ | .refused _ => none

/-! ### Well-formedness -/

/-- STA has no Immediate form, LDA no AbsoluteIndirect form (30_encoding.md R96). -/
theorem test_descriptor_refused : Descriptor.wellFormed ⟨0x89#8, .sta, .immediate⟩ = false ∧
    Descriptor.wellFormed ⟨0xA9#8, .lda, .absoluteIndirect⟩ = false ∧
    Descriptor.wellFormed ⟨0xA9#8, .lda, .immediate⟩ = true := by decide

/-- An opcode byte registered twice (30_encoding.md R95). -/
theorem test_duplicate_opcode_refused :
    wellFormedTable [⟨0xA9#8, .lda, .immediate⟩, ⟨0xA9#8, .ldx, .immediate⟩] = false := by decide

/-- A table with an ill-formed row. -/
theorem test_bad_row_refused : wellFormedTable [⟨0xEA#8, .nop, .absolute⟩] = false := by decide

/-- No instruction is ill-formed: operand fields have no reserved values (30_encoding.md R98). -/
theorem test_instructions_well_formed :
    (Instr.ldxZpY 0xFF#8).wellFormed = true ∧ (Instr.jmpInd 0xFFFF#16).wellFormed = true := by decide

/-- Cells out of order, a cell twice, a byte that an unlisted cell reads as. -/
theorem test_memory_refused : Memory.wf [(2, 1#8), (1, 1#8)] = false ∧
    Memory.wf [(1, 1#8), (1, 2#8)] = false ∧ Memory.wf [(1, 0#8)] = false ∧
    Memory.wf [(1, 1#8), (2, 1#8)] = true := by decide

/-- A cell that does not exist: a RAM mirror, the hole, past a half-size image (10_state.md R37, R39 to R41). -/
theorem test_cells_refused : State.wf { State.reset with mem := [(0x800, 1#8)] } = false ∧
    State.wf { State.reset with mem := [(0x4021, 1#8)] } = false ∧
    State.wf { State.reset with mem := [(0xC000, 1#8)], prgSize := .half } = false ∧
    State.wf { State.reset with mem := [(0xC000, 1#8)] } = true := by decide

/-! ### Decoding (30_encoding.md R91, R93, R96) -/

theorem test_decode_adc :
    decode [0x69#8, 0x42#8] = .ok (.adcImm 0x42#8, []) ∧
    decode [0x65#8, 0x42#8] = .ok (.adcZp 0x42#8, []) ∧
    decode [0x75#8, 0x42#8] = .ok (.adcZpX 0x42#8, []) ∧
    decode [0x6D#8, 0x34#8, 0x12#8] = .ok (.adcAbs 0x1234#16, []) ∧
    decode [0x7D#8, 0x34#8, 0x12#8] = .ok (.adcAbsX 0x1234#16, []) ∧
    decode [0x79#8, 0x34#8, 0x12#8] = .ok (.adcAbsY 0x1234#16, []) ∧
    decode [0x61#8, 0x42#8] = .ok (.adcIndX 0x42#8, []) ∧
    decode [0x71#8, 0x42#8] = .ok (.adcIndY 0x42#8, []) := by decide

theorem test_decode_bit :
    decode [0x24#8, 0x42#8] = .ok (.bitZp 0x42#8, []) ∧
    decode [0x2C#8, 0x34#8, 0x12#8] = .ok (.bitAbs 0x1234#16, []) := by decide

theorem test_decode_lda :
    decode [0xA9#8, 0x42#8] = .ok (.ldaImm 0x42#8, []) ∧
    decode [0xA5#8, 0x42#8] = .ok (.ldaZp 0x42#8, []) ∧
    decode [0xB5#8, 0x42#8] = .ok (.ldaZpX 0x42#8, []) ∧
    decode [0xAD#8, 0x34#8, 0x12#8] = .ok (.ldaAbs 0x1234#16, []) ∧
    decode [0xBD#8, 0x34#8, 0x12#8] = .ok (.ldaAbsX 0x1234#16, []) ∧
    decode [0xB9#8, 0x34#8, 0x12#8] = .ok (.ldaAbsY 0x1234#16, []) ∧
    decode [0xA1#8, 0x42#8] = .ok (.ldaIndX 0x42#8, []) ∧
    decode [0xB1#8, 0x42#8] = .ok (.ldaIndY 0x42#8, []) := by decide

theorem test_decode_ldx :
    decode [0xA2#8, 0x42#8] = .ok (.ldxImm 0x42#8, []) ∧
    decode [0xA6#8, 0x42#8] = .ok (.ldxZp 0x42#8, []) ∧
    decode [0xB6#8, 0x42#8] = .ok (.ldxZpY 0x42#8, []) ∧
    decode [0xAE#8, 0x34#8, 0x12#8] = .ok (.ldxAbs 0x1234#16, []) ∧
    decode [0xBE#8, 0x34#8, 0x12#8] = .ok (.ldxAbsY 0x1234#16, []) := by decide

theorem test_decode_sta :
    decode [0x85#8, 0x42#8] = .ok (.staZp 0x42#8, []) ∧
    decode [0x95#8, 0x42#8] = .ok (.staZpX 0x42#8, []) ∧
    decode [0x8D#8, 0x34#8, 0x12#8] = .ok (.staAbs 0x1234#16, []) ∧
    decode [0x9D#8, 0x34#8, 0x12#8] = .ok (.staAbsX 0x1234#16, []) ∧
    decode [0x99#8, 0x34#8, 0x12#8] = .ok (.staAbsY 0x1234#16, []) ∧
    decode [0x81#8, 0x42#8] = .ok (.staIndX 0x42#8, []) ∧
    decode [0x91#8, 0x42#8] = .ok (.staIndY 0x42#8, []) := by decide

theorem test_decode_stx :
    decode [0x86#8, 0x42#8] = .ok (.stxZp 0x42#8, []) ∧
    decode [0x96#8, 0x42#8] = .ok (.stxZpY 0x42#8, []) ∧
    decode [0x8E#8, 0x34#8, 0x12#8] = .ok (.stxAbs 0x1234#16, []) := by decide

theorem test_decode_jumps :
    decode [0x4C#8, 0x34#8, 0x12#8] = .ok (.jmpAbs 0x1234#16, []) ∧
    decode [0x6C#8, 0x34#8, 0x12#8] = .ok (.jmpInd 0x1234#16, []) ∧
    decode [0x20#8, 0x34#8, 0x12#8] = .ok (.jsr 0x1234#16, []) ∧
    decode [0x60#8] = .ok (.rts, []) := by decide

theorem test_decode_breaks_flags :
    decode [0x00#8] = .ok (.brk, []) ∧
    decode [0x40#8] = .ok (.rti, []) ∧
    decode [0x38#8] = .ok (.sec, []) ∧
    decode [0x18#8] = .ok (.clc, []) ∧
    decode [0xEA#8] = .ok (.nop, []) := by decide

theorem test_decode_branches :
    decode [0xB0#8, 0x42#8] = .ok (.bcs 0x42#8, []) ∧
    decode [0x90#8, 0x42#8] = .ok (.bcc 0x42#8, []) ∧
    decode [0xF0#8, 0x42#8] = .ok (.beq 0x42#8, []) ∧
    decode [0xD0#8, 0x42#8] = .ok (.bne 0x42#8, []) ∧
    decode [0x70#8, 0x42#8] = .ok (.bvs 0x42#8, []) ∧
    decode [0x50#8, 0x42#8] = .ok (.bvc 0x42#8, []) ∧
    decode [0x10#8, 0x42#8] = .ok (.bpl 0x42#8, []) := by decide

/-- The first byte is the low byte of the table word: LDA Immediate 0x42, and JMP Absolute 0x1234. -/
theorem test_decode_table_word : decodeTableWord 16 0x42A9 = some (.ldaImm 0x42#8) ∧
    decodeTableWord 24 0x12344C = some (.jmpAbs 0x1234#16) ∧ decodeTableWord 8 0x12340 = some .rti := by decide

/-- Rejection by name: an opcode without an entry (R97), bytes that end too early (R91), no bytes. -/
theorem test_decode_rejects : decode [0x30#8, 0x02#8] = .error (.unimplementedOpcode 0x30#8) ∧
    decode [0xA9#8] = .error (.truncated 0xA9#8) ∧ decode [0x4C#8, 0x00#8] = .error (.truncated 0x4C#8) ∧
    decode [] = .error .noBytes := by decide

/-! ### Single steps -/

/-- Table 2.1, the source's S4. -/
theorem test_adcImm_carry :
    result (fun t => (t.a, t.p, t.pc))
      (step { machine [0x69#8, 0x01#8] [] with a := 0xFF#8 }) =
      some (0x00#8, 0x27#8, 0x8002#16) := by decide

/-- Table 2.1. -/
theorem test_adcImm_carry_in_overflows :
    result (fun t => (t.a, t.p))
      (step { machine [0x69#8, 0x00#8] [] with a := 0x7F#8, p := 0x25#8 }) =
      some (0x80#8, 0xE4#8) := by decide

/-- Section 2.1, through memory at 0x10. -/
theorem test_adcZp_clears_overflow :
    result (fun t => (t.a, t.p, t.pc))
      (step { machine [0x65#8, 0x10#8] [(0x0010, 0x01#8)] with a := 0x01#8, p := 0x6C#8 }) =
      some (0x02#8, 0x2C#8, 0x8002#16) := by decide

/-- Section 2.1, through memory at 0x10. -/
theorem test_adcZp_ignores_decimal :
    result (fun t => (t.a, t.p))
      (step { machine [0x65#8, 0x10#8] [(0x0010, 0x19#8)] with a := 0x28#8, p := 0x2C#8 }) =
      some (0x41#8, 0x2C#8) := by decide

/-- By hand: R117, R121, R140. -/
theorem test_adcZpX_wraps_at_255 :
    result (fun t => (t.a, t.p))
      (step { machine [0x75#8, 0xFB#8] [(0x0000, 0x11#8), (0x00FF, 0x22#8)] with a := 0x01#8, x := 0x04#8 }) =
      some (0x12#8, 0x24#8) := by decide

/-- Table 2.1, at a RAM mirror. -/
theorem test_adcAbs_negative_sum_keeps_v_clear :
    result (fun t => (t.a, t.p, t.pc))
      (step { machine [0x6D#8, 0x34#8, 0x1A#8] [(0x0234, 0x80#8)] with a := 0x80#8 }) =
      some (0x00#8, 0x27#8, 0x8003#16) := by decide

/-- By hand: R124, R140; address of table 2.7. -/
theorem test_adcAbsX :
    result (fun t => (t.a, t.p))
      (step { machine [0x7D#8, 0xF0#8, 0x12#8] [(0x0310, 0x5A#8)] with x := 0x20#8, p := 0x25#8 }) =
      some (0x5B#8, 0x24#8) := by decide

/-- By hand: R125, R140; address of table 2.7. -/
theorem test_adcAbsY :
    result (fun t => (t.a, t.p))
      (step { machine [0x79#8, 0x00#8, 0x02#8] [(0x02FF, 0x3F#8)] with a := 0x40#8, y := 0xFF#8, p := 0x25#8 }) =
      some (0x80#8, 0xE4#8) := by decide

/-- By hand: R126, R140; address of table 2.7. -/
theorem test_adcIndX :
    result (fun t => (t.a, t.p))
      (step { machine [0x61#8, 0x20#8] [(0x0024, 0x00#8), (0x0025, 0x03#8), (0x0300, 0x90#8)] with a := 0xD0#8, x := 0x04#8 }) =
      some (0x60#8, 0x25#8) := by decide

/-- By hand: R127, R140; address of table 2.7. -/
theorem test_adcIndY :
    result (fun t => (t.a, t.p))
      (step { machine [0x71#8, 0xFF#8] [(0x00FF, 0x10#8), (0x0100, 0x02#8), (0x0000, 0x07#8), (0x0211, 0xC3#8), (0x0711, 0x3C#8)] with y := 0x01#8 }) =
      some (0xC3#8, 0xA4#8) := by decide

/-- Table 2.2, the source's S5. -/
theorem test_bitZp :
    result (fun t => (t.a, t.p, t.pc))
      (step { machine [0x24#8, 0x10#8] [(0x0010, 0x40#8)] with a := 0xFF#8 }) =
      some (0xFF#8, 0x64#8, 0x8002#16) := by decide

/-- Table 2.2. -/
theorem test_bitZp_zero_from_and :
    result (fun t => (t.a, t.p))
      (step { machine [0x24#8, 0x10#8] [(0x0010, 0xC0#8)] with a := 0x3F#8 }) =
      some (0x3F#8, 0xE6#8) := by decide

/-- Table 2.2, in the absolute form. -/
theorem test_bitAbs_clears :
    result (fun t => (t.a, t.p, t.pc))
      (step { machine [0x2C#8, 0x10#8, 0x00#8] [(0x0010, 0x01#8)] with a := 0x01#8, p := 0xE6#8 }) =
      some (0x01#8, 0x24#8, 0x8003#16) := by decide

/-- Table 2.3. -/
theorem test_ldaImm_keeps_other_flags :
    result (fun t => (t.a, t.p, t.pc))
      (step { machine [0xA9#8, 0x01#8] [] with p := 0xE7#8 }) =
      some (0x01#8, 0x65#8, 0x8002#16) := by decide

/-- Table 2.3. -/
theorem test_ldaZp :
    result (fun t => (t.a, t.p))
      (step (machine [0xA5#8, 0xFF#8] [(0x00FF, 0x80#8)])) =
      some (0x80#8, 0xA4#8) := by decide

/-- Table 2.7, last row. -/
theorem test_ldaZp_wraps_the_pc :
    result (fun t => (t.a, t.pc))
      (step { machine [] [(0xBFFF, 0xA5#8), (0x0000, 0x10#8), (0x0010, 0x77#8)] with pc := 0xFFFF#16 }) =
      some (0x77#8, 0x0001#16) := by decide

/-- Table 2.7. -/
theorem test_ldaZpX_wraps_at_255 :
    result (fun t => t.a)
      (step { machine [0xB5#8, 0xFB#8] [(0x0000, 0x11#8), (0x00FF, 0x22#8)] with x := 0x04#8 }) =
      some (0x11#8) := by decide

/-- Table 2.3. -/
theorem test_ldaAbs_ram_mirror :
    result (fun t => (t.a, t.p))
      (step (machine [0xAD#8, 0x34#8, 0x1A#8] [(0x0234, 0x12#8)])) =
      some (0x12#8, 0x24#8) := by decide

/-- Table 2.3. -/
theorem test_ldaAbs_image_mirror :
    result (fun t => (t.a, t.p))
      (step (machine [0xAD#8, 0x00#8, 0xC0#8] [])) =
      some (0xAD#8, 0xA4#8) := by decide

/-- Table 2.7. -/
theorem test_ldaAbsX_wraps :
    result (fun t => t.a)
      (step { machine [0xBD#8, 0xF0#8, 0xFF#8] [(0x0010, 0x6B#8)] with x := 0x20#8 }) =
      some (0x6B#8) := by decide

/-- Table 2.7. -/
theorem test_ldaAbsY :
    result (fun t => t.a)
      (step { machine [0xB9#8, 0x00#8, 0x02#8] [(0x02FF, 0x44#8)] with y := 0xFF#8 }) =
      some (0x44#8) := by decide

/-- Table 2.7. -/
theorem test_ldaIndX_pointer_wraps :
    result (fun t => t.a)
      (step { machine [0xA1#8, 0xFE#8] [(0x0002, 0x00#8), (0x0003, 0x60#8), (0x6000, 0x9E#8)] with x := 0x03#8 }) =
      some (0x9E#8) := by decide

/-- Table 2.7. -/
theorem test_ldaIndY_no_page_wrap :
    result (fun t => t.a)
      (step { machine [0xB1#8, 0xFF#8] [(0x00FF, 0x10#8), (0x0100, 0x02#8), (0x0000, 0x07#8), (0x0211, 0xC3#8), (0x0711, 0x3C#8)] with y := 0x01#8 }) =
      some (0xC3#8) := by decide

/-- Table 2.7. -/
theorem test_ldaIndY_wraps :
    result (fun t => t.a)
      (step { machine [0xB1#8, 0x30#8] [(0x0030, 0xF8#8), (0x0031, 0xFF#8), (0x0008, 0x42#8)] with y := 0x10#8 }) =
      some (0x42#8) := by decide

/-- Table 2.3. -/
theorem test_ldxImm_keeps_other_flags :
    result (fun t => (t.x, t.p, t.a))
      (step { machine [0xA2#8, 0x01#8] [] with p := 0xE7#8 }) =
      some (0x01#8, 0x65#8, 0x00#8) := by decide

/-- By hand: R120, R152. -/
theorem test_ldxZp :
    result (fun t => (t.x, t.p))
      (step (machine [0xA6#8, 0x10#8] [(0x0010, 0x80#8)])) =
      some (0x80#8, 0xA4#8) := by decide

/-- Table 2.7. -/
theorem test_ldxZpY_indexes_by_y :
    result (fun t => (t.x, t.p))
      (step { machine [0xB6#8, 0xFE#8] [(0x0002, 0x81#8)] with y := 0x03#8, x := 0x55#8 }) =
      some (0x81#8, 0xA4#8) := by decide

/-- By hand: R123, R152. -/
theorem test_ldxAbs :
    result (fun t => (t.x, t.pc))
      (step (machine [0xAE#8, 0x15#8, 0x40#8] [(0x4015, 0x0F#8)])) =
      some (0x0F#8, 0x8003#16) := by decide

/-- By hand: R125, R152; address of table 2.7. -/
theorem test_ldxAbsY :
    result (fun t => t.x)
      (step { machine [0xBE#8, 0x00#8, 0x02#8] [(0x02FF, 0x44#8)] with y := 0xFF#8 }) =
      some (0x44#8) := by decide

/-- By hand: R120, R153. -/
theorem test_staZp :
    result (fun t => (t.mem.read 0x0010, t.p, t.pc))
      (step { machine [0x85#8, 0x10#8] [] with a := 0xAA#8 }) =
      some (0xAA#8, 0x24#8, 0x8002#16) := by decide

/-- By hand: R121, R153; address of table 2.3. -/
theorem test_staZpX_wraps_at_255 :
    result (fun t => (t.mem.read 0x0000, t.mem.read 0x00FF))
      (step { machine [0x95#8, 0x80#8] [] with a := 0xEE#8, x := 0x7F#8 }) =
      some (0xEE#8, 0x00#8) := by decide

/-- Table 2.3. -/
theorem test_staAbs_cartridge_ram :
    result (fun t => (t.mem.read 0x6000, t.p))
      (step { machine [0x8D#8, 0x00#8, 0x60#8] [] with a := 0x9E#8 }) =
      some (0x9E#8, 0x24#8) := by decide

/-- By hand: R124, R153; address of table 2.7. -/
theorem test_staAbsX :
    result (fun t => t.mem.read 0x0310)
      (step { machine [0x9D#8, 0xF0#8, 0x12#8] [] with a := 0x5A#8, x := 0x20#8 }) =
      some (0x5A#8) := by decide

/-- By hand: R125, R153; address of table 2.7. -/
theorem test_staAbsY :
    result (fun t => t.mem.read 0x02FF)
      (step { machine [0x99#8, 0x00#8, 0x02#8] [] with a := 0x44#8, y := 0xFF#8 }) =
      some (0x44#8) := by decide

/-- By hand: R126, R153; address of table 2.7. -/
theorem test_staIndX :
    result (fun t => t.mem.read 0x0300)
      (step { machine [0x81#8, 0x20#8] [(0x0024, 0x00#8), (0x0025, 0x03#8)] with a := 0x99#8, x := 0x04#8 }) =
      some (0x99#8) := by decide

/-- By hand: R127, R153; address of table 2.7. -/
theorem test_staIndY :
    result (fun t => t.mem.read 0x0211)
      (step { machine [0x91#8, 0xFF#8] [(0x00FF, 0x10#8), (0x0100, 0x02#8)] with a := 0xC3#8, y := 0x01#8 }) =
      some (0xC3#8) := by decide

/-- Table 2.3. -/
theorem test_stxZp_sets_no_flag :
    result (fun t => (t.mem.read 0x0010, t.p))
      (step { machine [0x86#8, 0x10#8] [] with x := 0xAA#8 }) =
      some (0xAA#8, 0x24#8) := by decide

/-- Table 2.3. -/
theorem test_stxZpY_wraps_at_255 :
    result (fun t => (t.mem.read 0x0000, t.mem.read 0x00FF))
      (step { machine [0x96#8, 0x80#8] [] with y := 0x7F#8, x := 0xEE#8 }) =
      some (0xEE#8, 0x00#8) := by decide

/-- By hand: R54, R123, R154. -/
theorem test_stxAbs_ram_mirror :
    result (fun t => (t.mem.read 0x0234, t.pc))
      (step { machine [0x8E#8, 0x34#8, 0x1A#8] [] with x := 0x12#8, a := 0x55#8 }) =
      some (0x12#8, 0x8003#16) := by decide

/-- By hand: R61, R154; address of table 2.3. -/
theorem test_stxAbs_inert_store :
    result (fun t => t.mem.read 0x4015)
      (step { machine [0x8E#8, 0x15#8, 0x40#8] [] with x := 0x0F#8 }) =
      some (0x0F#8) := by decide

/-- Table 2.4. -/
theorem test_jmpAbs :
    result (fun t => (t.pc, t.p))
      (step (machine [0x4C#8, 0x20#8, 0x40#8] [])) =
      some (0x4020#16, 0x24#8) := by decide

/-- Table 2.4. -/
theorem test_jmpInd_no_page_wrap :
    result (fun t => t.pc)
      (step (machine [0x6C#8, 0xFF#8, 0x02#8] [(0x02FF, 0x34#8), (0x0300, 0x12#8), (0x0200, 0x56#8)])) =
      some (0x1234#16) := by decide

/-- Table 2.4. -/
theorem test_jsr :
    result (fun t => (t.mem.read 0x01FD, t.mem.read 0x01FC, t.sp, t.pc))
      (step { machine [0xEA#8, 0xEA#8, 0x20#8, 0x09#8, 0x80#8] [] with pc := 0x8002#16 }) =
      some (0x05#8, 0x80#8, 0xFB#8, 0x8009#16) := by decide

/-- Table 2.4. -/
theorem test_jsr_stack_wraps :
    result (fun t => (t.mem.read 0x0100, t.mem.read 0x01FF, t.sp, t.pc))
      (step { machine [0x20#8, 0x00#8, 0x90#8] [] with sp := 0x00#8 }) =
      some (0x03#8, 0x80#8, 0xFE#8, 0x9000#16) := by decide

/-- Table 2.4. -/
theorem test_rts :
    result (fun t => (t.pc, t.sp))
      (step { machine [0x60#8] [(0x01FC, 0x80#8), (0x01FD, 0x05#8)] with sp := 0xFB#8 }) =
      some (0x8005#16, 0xFD#8) := by decide

/-- Table 2.4. -/
theorem test_rts_stack_wraps :
    result (fun t => (t.pc, t.sp))
      (step { machine [0x60#8] [(0x01FF, 0x00#8), (0x0100, 0x12#8)] with sp := 0xFE#8 }) =
      some (0x0012#16, 0x00#8) := by decide

/-- Table 2.5. -/
theorem test_brk :
    result (fun t => (t.mem.read 0x01FD, t.mem.read 0x01FC, t.mem.read 0x01FB, t.sp, t.pc, t.p))
      (step { machine [] [(0xBFFE, 0x00#8), (0xBFFF, 0xC1#8)] with pc := 0xC010#16 }) =
      some (0x11#8, 0xC0#8, 0x34#8, 0xFA#8, 0xC100#16, 0x24#8) := by decide

/-- Table 2.5. -/
theorem test_brk_stack_wraps :
    result (fun t => (t.mem.read 0x0101, t.mem.read 0x0100, t.mem.read 0x01FF, t.sp, t.pc, t.p))
      (step { machine [0x00#8] [(0xBFFE, 0x00#8), (0xBFFF, 0x90#8)] with sp := 0x01#8, p := 0xE7#8 }) =
      some (0x01#8, 0x80#8, 0xF7#8, 0xFE#8, 0x9000#16, 0xE7#8) := by decide

/-- Table 2.5. -/
theorem test_rti_clears_break_alone :
    result (fun t => (t.p, t.pc, t.sp))
      (step { machine [0x40#8] [(0x01F1, 0xDF#8), (0x01F2, 0x12#8), (0x01F3, 0x34#8)] with sp := 0xF0#8 }) =
      some (0xCF#8, 0x1234#16, 0xF3#8) := by decide

/-- Table 2.5. -/
theorem test_rti_stack_wraps :
    result (fun t => (t.p, t.pc, t.sp))
      (step { machine [0x40#8] [(0x01FF, 0x10#8), (0x0100, 0x80#8), (0x0101, 0x00#8)] with sp := 0xFE#8 }) =
      some (0x00#8, 0x8000#16, 0x01#8) := by decide

/-- Table 2.6. -/
theorem test_sec :
    result (fun t => (t.p, t.pc))
      (step (machine [0x38#8] [])) =
      some (0x25#8, 0x8001#16) := by decide

/-- Table 2.6. -/
theorem test_clc :
    result (fun t => (t.p, t.pc))
      (step { machine [0x18#8] [] with p := 0xE5#8 }) =
      some (0xE4#8, 0x8001#16) := by decide

/-- Table 2.6. -/
theorem test_nop :
    result (fun t => (t.p, t.a, t.sp, t.pc))
      (step { machine [0xEA#8] [] with p := 0xE7#8, a := 0x55#8 }) =
      some (0xE7#8, 0x55#8, 0xFD#8, 0x8001#16) := by decide

/-- Table 2.6. -/
theorem test_bcs_taken :
    result (fun t => (t.pc, t.p))
      (step { machine [0xB0#8, 0x10#8] [] with p := 0x25#8 }) =
      some (0x8012#16, 0x25#8) := by decide

/-- Table 2.6. -/
theorem test_bcs_not_taken :
    result (fun t => (t.pc, t.p))
      (step { machine [0xB0#8, 0x10#8] [] with p := 0x24#8 }) =
      some (0x8002#16, 0x24#8) := by decide

/-- Table 2.6. -/
theorem test_bcc_taken :
    result (fun t => (t.pc, t.p))
      (step { machine [0x90#8, 0x10#8] [] with p := 0x24#8 }) =
      some (0x8012#16, 0x24#8) := by decide

/-- Table 2.6. -/
theorem test_bcc_not_taken :
    result (fun t => (t.pc, t.p))
      (step { machine [0x90#8, 0x10#8] [] with p := 0x25#8 }) =
      some (0x8002#16, 0x25#8) := by decide

/-- Table 2.6. -/
theorem test_beq_taken :
    result (fun t => (t.pc, t.p))
      (step { machine [0xF0#8, 0x10#8] [] with p := 0x26#8 }) =
      some (0x8012#16, 0x26#8) := by decide

/-- Table 2.6. -/
theorem test_beq_not_taken :
    result (fun t => (t.pc, t.p))
      (step { machine [0xF0#8, 0x10#8] [] with p := 0x24#8 }) =
      some (0x8002#16, 0x24#8) := by decide

/-- Table 2.6. -/
theorem test_bne_not_taken :
    result (fun t => (t.pc, t.p))
      (step { machine [0xD0#8, 0x10#8] [] with p := 0x26#8 }) =
      some (0x8002#16, 0x26#8) := by decide

/-- Table 2.6. -/
theorem test_bvs_taken :
    result (fun t => (t.pc, t.p))
      (step { machine [0x70#8, 0x10#8] [] with p := 0x64#8 }) =
      some (0x8012#16, 0x64#8) := by decide

/-- Table 2.6. -/
theorem test_bvs_not_taken :
    result (fun t => (t.pc, t.p))
      (step { machine [0x70#8, 0x10#8] [] with p := 0x24#8 }) =
      some (0x8002#16, 0x24#8) := by decide

/-- Table 2.6. -/
theorem test_bvc_not_taken :
    result (fun t => (t.pc, t.p))
      (step { machine [0x50#8, 0x10#8] [] with p := 0x64#8 }) =
      some (0x8002#16, 0x64#8) := by decide

/-- Table 2.6. -/
theorem test_bpl_not_taken :
    result (fun t => (t.pc, t.p))
      (step { machine [0x10#8, 0x10#8] [] with p := 0xA4#8 }) =
      some (0x8002#16, 0xA4#8) := by decide

/-- Table 2.6, offsets. -/
theorem test_bne_backward :
    result (fun t => t.pc)
      (step { machine [] [(0x8016, 0xD0#8), (0x8017, 0xF0#8)] with pc := 0x8016#16 }) =
      some (0x8008#16) := by decide

/-- Table 2.6, offsets. -/
theorem test_bvc_wraps_below_zero :
    result (fun t => t.pc)
      (step { machine [] [(0x0000, 0x50#8), (0x0001, 0xF0#8)] with pc := 0x0000#16 }) =
      some (0xFFF2#16) := by decide

/-- Table 2.6, offsets. -/
theorem test_bpl_wraps_past_the_top :
    result (fun t => t.pc)
      (step { machine [] [(0xBFF0, 0x10#8), (0xBFF1, 0x20#8)] with pc := 0xFFF0#16 }) =
      some (0x0012#16) := by decide

/-! ### Errors (table 2.8; the second operand byte and the pointer by hand: R116, R128, R202): the error, and part of
the machine it leaves -/

theorem test_error_unimplemented_opcode :
    raised (fun t => (t.a, t.pc, t.status))
      (step { machine [0xA9#8, 0x05#8, 0x30#8, 0x02#8] [] with a := 0x05#8, pc := 0x8002#16 }) =
      some (.unimplementedOpcode 0x30#8, 0x05#8, 0x8002#16, .halted (.unimplementedOpcode 0x30#8)) := by decide

theorem test_error_fetch_in_the_hole :
    raised (fun t => (t.pc, t.status))
      (step { machine [] [] with pc := 0x5000#16 }) =
      some (.invalidBusAddress 0x5000#16, 0x5000#16, .halted (.invalidBusAddress 0x5000#16)) := by decide

theorem test_error_operand_fetch_in_the_hole :
    raised (fun t => (t.pc, t.status))
      (step { machine [] [(0x401F, 0x8D#8)] with pc := 0x401F#16 }) =
      some (.invalidBusAddress 0x4021#16, 0x401F#16, .halted (.invalidBusAddress 0x4021#16)) := by decide

theorem test_error_pointer_in_the_hole :
    raised (fun t => (t.pc, t.status))
      (step (machine [0x6C#8, 0x20#8, 0x40#8] [])) =
      some (.invalidBusAddress 0x4021#16, 0x8000#16, .halted (.invalidBusAddress 0x4021#16)) := by decide

theorem test_error_store_in_the_hole :
    raised (fun t => (t.x, t.pc, t.status))
      (step { machine [0x8E#8, 0x00#8, 0x50#8] [] with x := 0x01#8 }) =
      some (.invalidBusAddress 0x5000#16, 0x01#8, 0x8000#16, .halted (.invalidBusAddress 0x5000#16)) := by decide

theorem test_error_jump_into_the_hole :
    raised (fun t => (t.pc, t.status))
      (step (machine [0x4C#8, 0x21#8, 0x40#8] [])) =
      some (.invalidBusAddress 0x4021#16, 0x8000#16, .halted (.invalidBusAddress 0x4021#16)) := by decide

theorem test_error_call_pushes_nothing :
    raised (fun t => (t.sp, t.mem.read 0x01FD, t.pc, t.status))
      (step (machine [0x20#8, 0x00#8, 0x50#8] [])) =
      some (.invalidBusAddress 0x5000#16, 0xFD#8, 0x00#8, 0x8000#16, .halted (.invalidBusAddress 0x5000#16)) := by decide

theorem test_error_branch_not_taken :
    raised (fun t => (t.pc, t.status))
      (step { machine [] [(0x6000, 0xB0#8), (0x6001, 0x80#8)] with pc := 0x6000#16 }) =
      some (.invalidBusAddress 0x5F82#16, 0x6000#16, .halted (.invalidBusAddress 0x5F82#16)) := by decide

theorem test_error_bulk_from_the_hole :
    raised (fun t => (t.a, t.pc, t.status))
      (step { machine [0x8D#8, 0x14#8, 0x40#8] [] with a := 0x41#8 }) =
      some (.invalidBusAddress 0x4100#16, 0x41#8, 0x8000#16, .halted (.invalidBusAddress 0x4100#16)) := by decide

/-- Page 0x40: the 34th source read raises; the draw at 0x4014 is made twice, by Resolve and by the transfer. -/
theorem test_error_bulk_from_page_40 :
    raised (fun t => (t.pc, t.draws, t.gfxLog)) (step { machine [0x8D#8, 0x14#8, 0x40#8] [] with a := 0x40#8 }) =
      some (.invalidBusAddress 0x4021#16, 0x8000#16, 2, []) := by decide

/-- A write into the image window is refused. -/
theorem test_store_to_the_image_refused :
    step (machine [0x8D#8, 0x00#8, 0x80#8] []) = .refused (.prgRomWrite 0x8000#16) := rfl

set_option maxRecDepth 20000 in
/-- The bulk transfer (20_memory.md R62): 514 extra cycles from the odd count 7 (the source's S6), one load. -/
theorem test_bulk_cycles_odd :
    result State.cyc (step { machine [0x8D#8, 0x14#8, 0x40#8] [] with a := 0x02#8 }) =
      some (7 + Config.stepCycles + 514) := rfl

set_option maxRecDepth 20000 in
theorem test_bulk_cycles_even :
    result State.cyc (step { machine [0x8D#8, 0x14#8, 0x40#8] [] with a := 0x02#8, cyc := 8 }) =
      some (8 + Config.stepCycles + 513) := rfl

set_option maxRecDepth 20000 in
/-- The load holds the page in ascending order: 0x0201 is its second byte, 0x02FF its last. -/
theorem test_bulk_bytes :
    result (fun t => t.gfxLog.map fun e => match e with
        | .bulkLoad bs => (bs.length, bs[1]?, bs[255]?)
        | .read _ _ | .write _ _ _ => (0, none, none))
      (step { machine [0x8D#8, 0x14#8, 0x40#8] [(0x0201, 0x03#8), (0x02FF, 0xFD#8)] with a := 0x02#8 }) =
      some [(256, some 0x03#8, some 0xFD#8)] := by decide

/-! ### Loader (the source's S7) -/

/-- A header that declares one 16 KB image, and no body. -/
theorem test_loader_truncated : loadCartridge ([0x4E#8, 0x45#8, 0x53#8, 0x1A#8, 1#8] ++ List.replicate 11 0#8) =
    .error .truncatedFile := by decide

/-- Sixteen bytes, zero sizes: empty images. -/
theorem test_loader_empty_images : loadCartridge ([0x4E#8, 0x45#8, 0x53#8, 0x1A#8] ++ List.replicate 12 0#8) =
    .ok { prg := [], chr := [] } := by decide

theorem test_loader_bad_magic : loadCartridge (List.replicate 16 0#8) = .error .invalidHeader := by decide

/-! ### Witnesses: the hypotheses of each statement are met together

Where a clause asks what the graphics facade answers, no concrete answer can be shown (it is a free value), so the
witness shows that one of the clauses always applies. -/

/-- One instruction in the image, a byte in RAM to read, and the machine after it. -/
abbrev loadMachine : State := machine [0xA5#8, 0x10#8] [(0x10, 0x33#8)]

theorem witness_DecodedBytesAreTheEncoding :
    decode [0xA9#8, 0x10#8, 0x55#8] = .ok (.ldaImm 0x10#8, [0x55#8]) := by decide

theorem witness_StepRunsTheFetchedInstruction : loadMachine.status = .running ∧
    readRun 2 loadMachine.pc loadMachine = .ok [0xA5#8, 0x10#8] loadMachine ∧
    decode [0xA5#8, 0x10#8] = .ok (.ldaZp 0x10#8, []) := ⟨rfl, rfl, rfl⟩

theorem witness_StepRunsTheStoredInstruction : loadMachine.status = .running ∧
    (∀ (j : Nat) (h : j < [0xA5#8, 0x10#8].length),
      loadMachine.peek (loadMachine.pc + BitVec.ofNat 16 j) = some [0xA5#8, 0x10#8][j]) ∧
    decode [0xA5#8, 0x10#8] = .ok (.ldaZp 0x10#8, []) := by decide

theorem witness_UnregisteredOpcodeHalts : (machine [0x30#8] []).status = .running ∧
    busRead (machine [0x30#8] []).pc (machine [0x30#8] []) = .ok 0x30#8 (machine [0x30#8] []) ∧
    0x30#8 ∉ registeredOpcodes := by decide

/-- Each read of a fetch raises somewhere: the opcode at the top of the hole; the operand byte at its bottom, after an
LDA ZeroPage in the last cell of the inert store; the second operand byte there, after an STA Absolute. -/
theorem witness_UnreadableFetchHalts :
    (busRead 0x5FFF#16 State.reset = .stop (.raise (.invalidBusAddress 0x5FFF#16)) State.reset) ∧
    (∀ s ∈ [{ machine [] [(0x4020, 0xA5#8)] with pc := 0x4020#16 }], s.status = .running ∧
      (⟨0xA5#8, .lda, .zeroPage⟩ : Descriptor) ∈ instructionTable ∧ 1 ≤ Mode.zeroPage.operandBytes ∧
      busRead s.pc s = .ok 0xA5#8 s ∧ busRead (BitVec.ofNat 16 (s.pc.toNat + 1)) s =
        .stop (.raise (.invalidBusAddress 0x4021#16)) s) ∧
    ∀ s ∈ [{ machine [] [(0x401F, 0x8D#8)] with pc := 0x401F#16 }], s.status = .running ∧
      (⟨0x8D#8, .sta, .absolute⟩ : Descriptor) ∈ instructionTable ∧ Mode.absolute.operandBytes = 2 ∧
      busRead s.pc s = .ok 0x8D#8 s ∧
      busRead (BitVec.ofNat 16 (s.pc.toNat + 1)) s = .ok 0x00#8 s ∧
      busRead (BitVec.ofNat 16 (s.pc.toNat + 2)) s =
        .stop (.raise (.invalidBusAddress 0x4021#16)) s := by decide

theorem witness_HaltedMachineTakesNoStep :
    { State.reset with status := .halted .invalidRegisterAccess }.status = .halted .invalidRegisterAccess := rfl

theorem witness_ErrorKeepsRegistersAndMemory : ∃ f, (machine [0x30#8] []).status = .running ∧
    step (machine [0x30#8] []) = .fault f := ⟨_, rfl, rfl⟩

theorem witness_ErrorsHaveTheSpecsCauses :
    (∃ f, step (machine [0x30#8] []) = .fault f ∧ f.error = .unimplementedOpcode 0x30#8) ∧
    (∃ f, step (machine [0x4C#8, 0x21#8, 0x40#8] []) = .fault f ∧ f.error = .invalidBusAddress 0x4021#16) ∧
    (∃ f, step { State.reset with pc := 0x5FFF#16 } = .fault f ∧ f.error = .invalidBusAddress 0x5FFF#16) :=
  ⟨⟨_, rfl, rfl⟩, ⟨_, rfl, rfl⟩, _, rfl, rfl⟩

/-- The third error: a fetch from the graphics window, if the facade fails it. -/
theorem witness_ErrorsHaveTheSpecsCauses_facade (h : Config.gfxRead [] 0#3 = .invalidRegisterAccess) :
    ∃ f, step { State.reset with pc := 0x2000#16 } = .fault f ∧ f.error = .invalidRegisterAccess := by
  have hb : busRead 0x2000#16 { State.reset with pc := 0x2000#16 } = .stop (.raise .invalidRegisterAccess)
      (State.record (.read 0#3 .invalidRegisterAccess) { State.reset with pc := 0x2000#16 }) := by
    rw [busRead, show route 0x2000#16 = .graphics by decide]
    rw [show gfxRegOf 0x2000#16 = 0#3 by decide]
    exact gfxRead_stop.2 ⟨h, rfl, rfl⟩
  have key : ∀ (s t : State) (why : Stop), s.status = .running → busRead s.pc s = .stop why t →
      step s = stopped why s t := by
    intro s t why hs h
    simp [step, fetch, hs, h]
  have h' := key { State.reset with pc := 0x2000#16 } _ _ rfl hb
  exact ⟨_, h', rfl⟩

theorem witness_OnlyImageWritesAreRefused :
    step (machine [0x8D#8, 0x00#8, 0x80#8] []) = .refused (.prgRomWrite 0x8000#16) := rfl

/-- For every statement about a step that completes: an invariant machine, and a step that stores. -/
theorem witness_step_completes : (machine [0x86#8, 0x10#8] []).wf = true ∧
    (machine [0x86#8, 0x10#8] []).flag .brk = false ∧ ∃ t, step (machine [0x86#8, 0x10#8] []) = .next t :=
  ⟨by decide, by decide, _, rfl⟩

/-- For the statements about which instruction writes what: NOP stands in no list, RTI in most. -/
theorem witness_exec_completes : (∃ t, exec .nop State.reset = .next t) ∧
    (∃ t, exec .rti State.reset = .next t) ∧ (∃ t, exec (.adcImm 0x01#8) State.reset = .next t) ∧
    (∃ t, exec .brk State.reset = .next t) ∧ ∃ t, exec (.jsr 0x0200#16) State.reset = .next t :=
  ⟨⟨_, rfl⟩, ⟨_, rfl⟩, ⟨_, rfl⟩, ⟨_, rfl⟩, _, rfl⟩

/-- For the routing statements: each clause's range at its two ends. -/
theorem witness_routes :
    [0x0000#16, 0x1FFF#16].map route = [.ram, .ram] ∧
    [0x2000#16, 0x3FFF#16].map route = [.graphics, .graphics] ∧
    [0x4000#16, 0x4013#16, 0x4015#16, 0x4020#16].map route =
      [.inertStore, .inertStore, .inertStore, .inertStore] ∧
    route 0x4014#16 = .bulkTrigger ∧ [0x4021#16, 0x5FFF#16].map route = [.unmapped, .unmapped] ∧
    [0x6000#16, 0x7FFF#16].map route = [.cartRam, .cartRam] ∧
    [0x8000#16, 0xFFFF#16].map route = [.prgRom, .prgRom] := by decide

/-- For every clause that asks what the facade answers to a read. -/
theorem witness_facade_read (l : List GfxEvent) (r : GfxReg) :
    (∃ b, Config.gfxRead l r = .byte b) ∨ Config.gfxRead l r = .invalidRegisterAccess := by
  cases Config.gfxRead l r with
  | byte b => exact .inl ⟨b, rfl⟩
  | invalidRegisterAccess => exact .inr rfl

/-- For every clause that asks whether the facade accepts a write. -/
theorem witness_facade_write (l : List GfxEvent) (r : GfxReg) (v : Byte) :
    Config.gfxWriteAccepted l r v = true ∨ Config.gfxWriteAccepted l r v = false :=
  (Bool.eq_false_or_eq_true _)

theorem witness_RamIsMirrored : State.reset.wf = true ∧ (0x1FFF#16 : Addr).toNat < 0x2000 := by decide

theorem witness_ImageFillsItsWindow : (machine [] []).prgSize = .half ∧ State.reset.prgSize = .full ∧
    0x3FFF < 0x4000 ∧ 0x7FFF < 0x8000 := by decide

/-- The second read wraps past the top. -/
theorem witness_Read16IsLittleEndian :
    busRead 0xFFFF#16 State.reset = .ok 0x00#8 State.reset ∧
    busRead (BitVec.ofNat 16 ((0xFFFF#16 : Addr).toNat + 1)) State.reset = .ok 0x00#8 State.reset := by decide

theorem witness_BulkTransferCopiesThePage : (∀ i : Byte, (route (wordOf 0x02#8 i)).stored = true) ∧
    (∀ i : Byte, (route (wordOf 0x1F#8 i)).stored = true) ∧
    (∀ i : Byte, (route (wordOf 0x60#8 i)).stored = true) ∧
    ∀ i : Byte, (route (wordOf 0xFF#8 i)).stored = true := by decide

theorem witness_BulkTransferFromTheHoleRaises :
    0x41 ≤ (0x41#8 : Byte).toNat ∧ (0x5F#8 : Byte).toNat ≤ 0x5F := by decide

/-- For the statements about the stack: the machine's memory is in its form, and every slot reads a byte. -/
theorem witness_stack : State.reset.wf = true ∧
    State.reset.peek (slot (State.reset.sp + 1#8)) = some 0x00#8 ∧
    State.reset.peek (slot (State.reset.sp + 2#8)) = some 0x00#8 ∧
    State.reset.peek (slot (State.reset.sp + 3#8)) = some 0x00#8 ∧
    State.reset.peek (slot 0x00#8) = some 0x00#8 ∧ State.reset.peek (slot 0xFF#8) = some 0x00#8 := by decide

theorem witness_SetFlagChangesOneBit : (Flag.negative, 7) ∈ [(Flag.carry, 0), (Flag.negative, 7)] ∧ 7 < 8 := by
  decide

theorem witness_IndirectEffectiveAddresses :
    State.reset.peek (BitVec.ofNat 16 (((0xFE#8 : Byte).toNat + State.reset.x.toNat) % 255)) = some 0x00#8 ∧
    State.reset.peek (BitVec.ofNat 16 (((0xFE#8 : Byte).toNat + State.reset.x.toNat) % 255 + 1)) = some 0x00#8 ∧
    State.reset.peek (BitVec.ofNat 16 (0xFF#8 : Byte).toNat) = some 0x00#8 ∧
    State.reset.peek (BitVec.ofNat 16 ((0xFF#8 : Byte).toNat + 1)) = some 0x00#8 ∧
    busRead 0x02FF#16 State.reset = .ok 0x00#8 State.reset ∧
    busRead (BitVec.ofNat 16 ((0x02FF#16 : Addr).toNat + 1)) State.reset = .ok 0x00#8 State.reset := by decide

/-- An effective address in storage, at 0x4014, in the graphics window and at both ends of the hole. -/
theorem witness_effective_addresses :
    (∃ u, effectiveAddress (.zeroPage 0x10#8) (loadMachine.advance 2) = .ok 0x0010#16 u) ∧
    loadMachine.peek 0x0010#16 = some 0x33#8 ∧
    (∃ u, effectiveAddress (.absolute 0x4014#16) (loadMachine.advance 3) = .ok 0x4014#16 u) ∧
    (∃ u, effectiveAddress (.absolute 0x2000#16) (loadMachine.advance 3) = .ok 0x2000#16 u) ∧
    (∃ u, effectiveAddress (.absolute 0x4021#16) (loadMachine.advance 3) = .ok 0x4021#16 u) ∧
    ∃ u, effectiveAddress (.absoluteX 0x5FFF#16) (loadMachine.advance 3) = .ok 0x5FFF#16 u :=
  ⟨⟨_, rfl⟩, by decide, ⟨_, rfl⟩, ⟨_, rfl⟩, ⟨_, rfl⟩, _, rfl⟩

/-- The forms those addresses are used with are among the addressed forms. -/
theorem witness_UnreadableOperandHalts :
    (Instr.staAbs 0x4021#16, EaMode.absolute 0x4021#16) ∈ addressedForms 0x00#8 0x4021#16 ∧
    (Instr.jsr 0x2000#16, EaMode.absolute 0x2000#16) ∈ addressedForms 0x00#8 0x2000#16 := by decide

/-- The first pointer byte at both ends of the hole, and the second at its bottom. -/
theorem witness_UnreadablePointerHalts : ∀ s ∈ [loadMachine.advance 3],
    effectiveAddress (.absoluteIndirect 0x4021#16) s = .stop (.raise (.invalidBusAddress 0x4021#16)) s ∧
    busRead 0x4021#16 s = .stop (.raise (.invalidBusAddress 0x4021#16)) s ∧
    busRead 0x5FFF#16 s = .stop (.raise (.invalidBusAddress 0x5FFF#16)) s ∧
    busRead 0x4020#16 s = .ok 0x00#8 s ∧
    busRead (BitVec.ofNat 16 ((0x4020#16 : Addr).toNat + 1)) s =
      .stop (.raise (.invalidBusAddress 0x4021#16)) s := by decide

theorem witness_AdcFromMemoryAdds :
    (Instr.adcZp 0x10#8, EaMode.zeroPage 0x10#8) ∈ adcForms 0x10#8 0x0000#16 ∧
    ∃ u, Resolves (.zeroPage 0x10#8) loadMachine 0x0010#16 0x33#8 u := ⟨by decide, _, _, rfl, rfl⟩

theorem witness_BitTestsTheOperand :
    (Instr.bitAbs 0x0010#16, EaMode.absolute 0x0010#16) ∈ bitForms 0x00#8 0x0010#16 ∧
    ∃ u, Resolves (.absolute 0x0010#16) loadMachine 0x0010#16 0x33#8 u := ⟨by decide, _, _, rfl, rfl⟩

theorem witness_LdaLoadsTheAccumulator :
    (Instr.ldaIndY 0x20#8, EaMode.indirectY 0x20#8) ∈ ldaForms 0x20#8 0x0000#16 ∧
    ∃ u, Resolves (.indirectY 0x20#8) { loadMachine with y := 0x10#8 } 0x0010#16 0x33#8 u :=
  ⟨by decide, _, _, rfl, rfl⟩

/-- The operand may be the free value read at 0x4014. -/
theorem witness_LdxLoadsTheIndex :
    (Instr.ldxAbs 0x4014#16, EaMode.absolute 0x4014#16) ∈ ldxForms 0x00#8 0x4014#16 ∧
    ∃ u, Resolves (.absolute 0x4014#16) loadMachine 0x4014#16 (Config.portByte 0) u :=
  ⟨by decide, _, _, rfl, rfl⟩

theorem witness_StoresToStorage : loadMachine.wf = true ∧
    (Instr.stxZp 0x10#8, EaMode.zeroPage 0x10#8, loadMachine.x) ∈ storeForms 0x10#8 0x0000#16 loadMachine ∧
    ∃ u, Resolves (.zeroPage 0x10#8) loadMachine 0x0010#16 0x33#8 u := ⟨by decide, by decide, _, _, rfl, rfl⟩

/-- Both ends of each range of storage addresses. -/
theorem witness_StoresToStorage_ranges : StorageAddress 0x0000#16 ∧ StorageAddress 0x1FFF#16 ∧
    StorageAddress 0x4000#16 ∧ StorageAddress 0x4013#16 ∧ StorageAddress 0x4015#16 ∧
    StorageAddress 0x4020#16 ∧ StorageAddress 0x6000#16 ∧ StorageAddress 0x7FFF#16 := by decide

theorem witness_StoresToGraphics :
    (Instr.staAbs 0x2006#16, EaMode.absolute 0x2006#16, loadMachine.a) ∈
      storeForms 0x00#8 0x2006#16 loadMachine ∧
    ∃ u, effectiveAddress (.absolute 0x2006#16) (loadMachine.advance 3) = .ok 0x2006#16 u :=
  ⟨by decide, _, rfl⟩

set_option maxRecDepth 20000 in
/-- The transfer from page 2 completes, the one from page 0x41 raises. -/
theorem witness_StoresToTheBulkTrigger :
    (∃ u, Resolves (.absolute 0x4014#16) loadMachine 0x4014#16 (Config.portByte 0) u ∧
      (∃ bytes w, readRun 256 (BitVec.ofNat 16 ((0x02#8 : Byte).toNat * 256)) u = .ok bytes w) ∧
      ∃ e w, readRun 256 (BitVec.ofNat 16 ((0x41#8 : Byte).toNat * 256)) u = .stop (.raise e) w) ∧
    ∀ v : Byte, (Instr.staAbs 0x4014#16, EaMode.absolute 0x4014#16, v) ∈
      storeForms 0x00#8 0x4014#16 { loadMachine with a := v } := by
  refine ⟨⟨(loadMachine.advance 3).nextDraw, ⟨loadMachine.advance 3, rfl, rfl⟩,
    ⟨_, _, readRun_stored _ 256 _ (by decide)⟩, .invalidBusAddress 0x4100#16, _, rfl⟩, fun v => ?_⟩
  simp [storeForms, staForms]

theorem witness_StoresToTheImageAreRefused :
    (Instr.stxAbs 0x8000#16, EaMode.absolute 0x8000#16, loadMachine.x) ∈
      storeForms 0x00#8 0x8000#16 loadMachine ∧
    (∃ u, Resolves (.absolute 0x8000#16) loadMachine 0x8000#16 0xA5#8 u) ∧
    0x8000 ≤ (0x8000#16 : Addr).toNat := ⟨by decide, ⟨_, _, rfl, rfl⟩, by decide⟩

theorem witness_JmpGoesToItsTarget :
    (Instr.jmpInd 0x0010#16, EaMode.absoluteIndirect 0x0010#16) ∈ jmpForms 0x0010#16 ∧
    ∃ u, Resolves (.absoluteIndirect 0x0010#16) loadMachine 0x0033#16 0x00#8 u := ⟨by decide, _, _, rfl, rfl⟩

theorem witness_JsrPushesTheNextAddress : loadMachine.wf = true ∧
    ∃ u, Resolves (.absolute 0x8000#16) loadMachine 0x8000#16 0xA5#8 u := ⟨by decide, _, _, rfl, rfl⟩

theorem witness_BrkEntersTheHandler : (machine [] [(0xBFFE, 0x00#8), (0xBFFF, 0xC1#8)]).wf = true ∧
    (machine [] [(0xBFFE, 0x00#8), (0xBFFF, 0xC1#8)]).peek 0xFFFE#16 = some 0x00#8 ∧
    (machine [] [(0xBFFE, 0x00#8), (0xBFFF, 0xC1#8)]).peek 0xFFFF#16 = some 0xC1#8 := by decide

/-- The machine the JSR left meets the conditions on the machine that runs the RTS, and so does another. -/
theorem witness_RtsReturnsAfterItsJsr : loadMachine.wf = true ∧
    ∃ t v, exec (.jsr 0x8000#16) loadMachine = .next t ∧ v = { t with a := 0x77#8, pc := 0x9000#16 } ∧
      v.sp = t.sp ∧ v.peek (slot (t.sp + 1#8)) = t.peek (slot (t.sp + 1#8)) ∧
      v.peek (slot (t.sp + 2#8)) = t.peek (slot (t.sp + 2#8)) := ⟨by decide, _, _, rfl, rfl, rfl, rfl, rfl⟩

theorem witness_RtiReturnsAfterItsBrk : loadMachine.wf = true ∧
    ∃ t v, exec .brk loadMachine = .next t ∧ v = { t with a := 0x77#8, pc := 0x9000#16 } ∧ v.sp = t.sp ∧
      ∀ k ∈ [1#8, 2#8, 3#8], v.peek (slot (t.sp + k)) = t.peek (slot (t.sp + k)) :=
  ⟨by decide, _, _, rfl, rfl, rfl, fun _ _ => rfl⟩

theorem witness_BranchesFollowTheirFlag :
    (Instr.bpl 0x7F#8, Flag.negative, false) ∈ branchForms 0x7F#8 ∧
    (∃ u, Resolves (.relative 0x7F#8) loadMachine 0x8081#16 0x00#8 u) ∧
    ∃ u, Resolves (.relative 0x80#8) loadMachine 0x7F82#16 0x00#8 u :=
  ⟨by decide, ⟨_, _, rfl, rfl⟩, _, _, rfl, rfl⟩

theorem witness_StoresChangeOneByte :
    (Instr.staZp 0x10#8, EaMode.zeroPage 0x10#8, loadMachine.a) ∈ storeForms 0x10#8 0x0000#16 loadMachine ∧
    (∃ t, exec (.staZp 0x10#8) loadMachine = .next t) ∧
    ∃ u, effectiveAddress (.zeroPage 0x10#8) (loadMachine.advance (EaMode.zeroPage 0x10#8).length) =
      .ok 0x0010#16 u := ⟨by decide, ⟨_, rfl⟩, _, rfl⟩

/-- A file with one whole 16 KB image. -/
abbrev imageFile : List Byte := [0x4E#8, 0x45#8, 0x53#8, 0x1A#8, 1#8] ++ List.replicate 11 0#8 ++
  List.replicate 16384 0xEA#8

theorem witness_ResetSetsTheMachine : ∃ cart, loadCartridge imageFile = .ok cart ∧
    cart.prg.length = 0x4000 ∧ ({} : ResetParams).cyc ≠ 0 := by
  have h4 : imageFile.take 4 = magic := by rfl
  have hp : prgLength imageFile = 16384 := by rfl
  have hc : chrLength imageFile = 0 := by rfl
  have ht : hasTrainer imageFile = false := by rfl
  have hl : imageFile.length = 16400 := by
    simp only [imageFile, List.length_append, List.length_cons, List.length_nil, List.length_replicate]
  refine ⟨_, by simp only [loadCartridge, h4, hp, hc, ht, hl]; rfl, ?_, by decide⟩
  simp only [List.length_take, List.length_drop, hl]
  decide

theorem witness_ResetWithoutAnImageYieldsNoMachine :
    loadCartridge (List.replicate 16 0#8) = .error .invalidHeader ∧
    ∃ cart, loadCartridge (magic ++ List.replicate 12 0#8) = .ok cart ∧ cart.prg.length ≠ 0x4000 ∧
      cart.prg.length ≠ 0x8000 := ⟨by decide, { prg := [], chr := [] }, by decide, by decide, by decide⟩

/-- Each clause about the loader: 15 bytes; a wrong signature; a trainer; a body too short; a whole file. -/
theorem witness_LoaderCutsOutTheImages :
    (List.replicate 15 (0#8 : Byte)).length < 16 ∧
    (16 ≤ (List.replicate 16 (0#8 : Byte)).length ∧ (List.replicate 16 (0#8 : Byte)).take 4 ≠ magic) ∧
    (∀ file ∈ [magic ++ [0#8, 0#8, 0x20#8] ++ List.replicate 9 (0#8 : Byte)],
      16 ≤ file.length ∧ file.take 4 = magic ∧ (file.getD 6 0#8).getLsbD 5 = true ∧
      16 + (file.getD 4 0#8).toNat * 16384 + (file.getD 5 0#8).toNat * 8192 ≤ file.length) ∧
    (∀ file ∈ [magic ++ [1#8] ++ List.replicate 11 (0#8 : Byte)],
      16 ≤ file.length ∧ file.take 4 = magic ∧ (file.getD 6 0#8).getLsbD 5 = false ∧
      file.length < 16 + (file.getD 4 0#8).toNat * 16384 + (file.getD 5 0#8).toNat * 8192) ∧
    ∀ file ∈ [magic ++ List.replicate 12 (0#8 : Byte)],
      16 ≤ file.length ∧ file.take 4 = magic ∧ (file.getD 6 0#8).getLsbD 5 = false ∧
      16 + (file.getD 4 0#8).toNat * 16384 + (file.getD 5 0#8).toNat * 8192 ≤ file.length := by decide

end Sys2Proof.Tests
end

section
/-! The stack and the flags (spec/10_state.md R27 to R35): what the memory of a Push16 holds, that the pops undo the
pushes, and the bits of P after a SetFlag. -/

namespace Sys2Proof.Machine

/-! ### The memory of a Push16 -/

/-- The low byte lies in the slot the stack pointer named (R33): the high byte went to another cell. -/
theorem read_pushed16_low {m : Memory} (hm : m.wf = true) (sp : Byte) (w : Addr) :
    (pushed16 m sp w).read (0x0100 + sp.toNat) = lo8 w := by
  rw [pushed16, Memory.read_write_other _ _ (slot_ne sp (by decide)), Memory.read_write_same _ _ hm]

/-- The high byte lies in the slot below (R33). -/
theorem read_pushed16_high {m : Memory} (hm : m.wf = true) (sp : Byte) (w : Addr) :
    (pushed16 m sp w).read (0x0100 + (sp - 1#8).toNat) = hi8 w :=
  Memory.read_write_same _ _ (Memory.wf_write _ _ hm)

theorem read_pushed16_other (m : Memory) {sp : Byte} (w : Addr) {i : Nat} (hlow : i ≠ 0x0100 + sp.toNat)
    (hhigh : i ≠ 0x0100 + (sp - 1#8).toNat) : (pushed16 m sp w).read i = m.read i := by
  rw [pushed16, Memory.read_write_other _ _ hhigh.symm, Memory.read_write_other _ _ hlow.symm]

/-- Pop16 after Push16 meets the two slots in the opposite order (R33, R34). -/
theorem popped16_pushed16 {m : Memory} (hm : m.wf = true) (sp : Byte) (w : Addr) :
    popped16 (pushed16 m sp w) (sp - 2#8) = w := by
  have hnext : sp - 2#8 + 1#8 = sp - 1#8 := by bv_omega
  rw [popped16, hnext, BitVec.sub_add_cancel, read_pushed16_high hm, read_pushed16_low hm, wordOf_hi8_lo8]

/-- Pop from the machine a push leaves: the byte pushed, and SP as it was (R35). -/
theorem pop_of_pushed {s : State} (hm : s.mem.wf = true) (b : Byte) :
    pop ((s.setMem (s.mem.write (0x0100 + s.sp.toNat) b)).setSp (s.sp - 1#8)) =
      .ok b (s.setMem (s.mem.write (0x0100 + s.sp.toNat) b)) := by
  rw [pop_eq, State.setSp_mem, State.setMem_mem, State.setSp_sp, BitVec.sub_add_cancel,
    Memory.read_write_same _ _ hm]
  rfl

/-- Pop16 from the machine a Push16 leaves: the word pushed, and SP as it was (R35). -/
theorem pop16_of_pushed16 {s : State} (hm : s.mem.wf = true) (w : Addr) :
    pop16 ((s.setMem (pushed16 s.mem s.sp w)).setSp (s.sp - 2#8)) =
      .ok w (s.setMem (pushed16 s.mem s.sp w)) := by
  rw [pop16_eq, State.setSp_mem, State.setMem_mem, State.setSp_sp, BitVec.sub_add_cancel,
    popped16_pushed16 hm]
  rfl

/-! ### The bits of P -/

/-- `mask(F)` has the one bit at the flag's position. -/
theorem Flag.getLsbD_mask (f : Flag) {j : Nat} (hj : j < 8) : f.mask.getLsbD j = decide (j = f.pos) := by
  simp [Flag.mask, ← BitVec.twoPow_eq, hj]

/-- SetFlag on each bit of P (R29). -/
theorem getLsbD_setFlag (f : Flag) (b : Bool) (p : Byte) {j : Nat} (hj : j < 8) :
    (setFlag f b p).getLsbD j = if j = f.pos then b else p.getLsbD j := by
  cases b with
  | false =>
    rw [setFlag, if_neg Bool.false_ne_true, BitVec.getLsbD_and, BitVec.getLsbD_not, f.getLsbD_mask hj]
    by_cases h : j = f.pos <;> simp [h, hj]
  | true =>
    rw [setFlag, if_pos rfl, BitVec.getLsbD_or, f.getLsbD_mask hj]
    by_cases h : j = f.pos <;> simp [h]

/-! ### The statements -/

/-- Settles O27: each pop reads back the slots its push wrote. -/
theorem stackRoundTrip : Obligations.StackRoundTrip := by
  intro s w b hwf
  have hm := State.wf_mem hwf
  exact ⟨⟨_, _, push16_eq w s, pop16_of_pushed16 hm w, rfl⟩, ⟨_, _, push_eq b s, pop_of_pushed hm b, rfl⟩⟩

/-- Settles O28: the pushes written out, and the cells they leave alone. -/
theorem pushStoresAndDecrements : Obligations.PushStoresAndDecrements := by
  intro s b w hwf
  have hm := State.wf_mem hwf
  refine ⟨⟨_, push_eq b s, ?_, ?_, rfl⟩, ⟨_, push16_eq w s, ?_, ?_, ?_, rfl⟩⟩
  · simp [peek_slot, Memory.read_write_same _ _ hm]
  · intro a ha
    have hcell : cellOf s.prgSize a ≠ 0x0100 + s.sp.toNat := by simpa [cellOf_slot] using ha
    exact State.peek_eq_of_cell rfl (Memory.read_write_other _ _ hcell.symm)
  · simp [peek_slot, read_pushed16_low hm]
  · rw [peek_slot]
    exact congrArg some (read_pushed16_high hm s.sp w)
  · intro a ha
    have hlow : cellOf s.prgSize a ≠ 0x0100 + s.sp.toNat := cellOf_slot s.prgSize s.sp ▸ ha _ (by simp)
    have hhigh : cellOf s.prgSize a ≠ 0x0100 + (s.sp - 1#8).toNat :=
      cellOf_slot s.prgSize (s.sp - 1#8) ▸ ha _ (by simp)
    exact State.peek_eq_of_cell rfl (read_pushed16_other s.mem w hlow hhigh)

/-- Settles O29: the pops written out, with the two slots' bytes as the hypotheses name them. -/
theorem popIncrementsAndReads : Obligations.PopIncrementsAndReads := by
  intro s hi lo hhi hlo
  rw [peek_slot, Option.some.injEq] at hhi hlo
  constructor
  · rw [pop_eq, hhi]
    rfl
  · rw [pop16_eq, popped16, hhi, hlo]
    rfl

/-- Settles O30: the listed positions are the model's, and SetFlag is known bit by bit. -/
theorem setFlagChangesOneBit : Obligations.SetFlagChangesOneBit := by
  intro p b f hf
  have hpos : f.1.pos = f.2 := by
    revert f
    decide
  rw [← hpos]
  exact ⟨rfl, fun j hj => getLsbD_setFlag f.1 b p hj⟩

end Sys2Proof.Machine
end

section
/-! RAM and its mirrors (spec/20_memory.md R54): which addresses reach a RAM cell, and what a read answers after a
write to one of them. -/

namespace Sys2Proof.Machine

/-- The cell behind a RAM address is its index. -/
theorem cellOf_ram (z : PrgSize) {a : Addr} (h : a.toNat < 0x2000) : cellOf z a = a.toNat % 0x0800 := by
  unfold cellOf
  rw [route_ram.2 h]

/-- No address above RAM reaches a RAM cell. -/
theorem le_cellOf_of_not_ram (z : PrgSize) {a : Addr} (h : 0x2000 ≤ a.toNat) : 0x2000 ≤ cellOf z a := by
  unfold cellOf
  split
  case h_1 hr => exact absurd (route_ram.1 hr) (Nat.not_lt.2 h)
  case h_2 => omega
  all_goals exact h

/-- The addresses that reach a RAM cell are the mirrors of its index (R54). -/
theorem cellOf_eq_ram_iff (z : PrgSize) {b : Addr} {i : Nat} (hi : i < 0x0800) :
    cellOf z b = i ↔ b.toNat < 0x2000 ∧ b.toNat % 0x0800 = i := by
  rcases Nat.lt_or_ge b.toNat 0x2000 with hb | hb
  · simp [cellOf_ram z hb, hb]
  · have hcell := le_cellOf_of_not_ram z hb
    omega

/-- A RAM read answers the byte at the index and changes nothing (R54). -/
theorem busRead_ram {a : Addr} (h : a.toNat < 0x2000) (s : State) :
    busRead a s = .ok (s.mem.read (a.toNat % 0x0800)) s := by
  have hstored : (route a).stored = true := by rw [route_ram.2 h]; rfl
  rw [busRead_stored hstored, cellOf_ram s.prgSize h]

/-- A RAM write replaces the byte at the index, at no extra cycle (R54). -/
theorem busWrite_ram {a : Addr} (h : a.toNat < 0x2000) (v : Byte) (c : Nat) (s : State) :
    busWrite a v c s = .ok 0 (s.setMem (s.mem.write (a.toNat % 0x0800) v)) := by
  have hwritable : (route a).writable = true := by rw [route_ram.2 h]; rfl
  rw [busWrite_writable hwritable, cellOf_ram s.prgSize h]

/-- Settles O22: a mirror reads the cell the write replaced, any other address reaches another cell. -/
theorem ramIsMirrored : Obligations.RamIsMirrored := by
  intro a v c s hwf ha
  refine ⟨busRead_ram ha s, _, busWrite_ram ha v c s, rfl, ?_, ?_⟩
  · intro b hb hindex
    rw [busRead_ram hb, hindex, State.setMem_mem, Memory.read_write_same _ _ (State.wf_mem hwf)]
  · intro b hother
    have hindex : a.toNat % 0x0800 < 0x0800 := Nat.mod_lt _ (by decide)
    exact peek_setMem_write (mt (cellOf_eq_ram_iff s.prgSize hindex).1 hother)

end Sys2Proof.Machine
end

section
/-! BIT (spec/41_alu.md R141): each flag of the status byte it leaves, and the machine it leaves wherever its operand
resolves. -/

namespace Sys2Proof.Machine

/-- `test == 0` (R141). -/
theorem getFlag_zero_bitStatus (a m p : Byte) : getFlag .zero (bitStatus a m p) = decide (a &&& m = 0#8) := by
  simp [bitStatus, beq_eq_decide]

theorem getFlag_overflow_bitStatus (a m p : Byte) : getFlag .overflow (bitStatus a m p) = m.getLsbD 6 := by
  simp [bitStatus]

theorem getFlag_negative_bitStatus (a m p : Byte) : getFlag .negative (bitStatus a m p) = m.getLsbD 7 :=
  getFlag_setFlag_same _ _ _

theorem getFlag_other_bitStatus {g : Flag} (hz : g ≠ .zero) (hv : g ≠ .overflow) (hn : g ≠ .negative)
    (a m p : Byte) : getFlag g (bitStatus a m p) = getFlag g p := by
  simp [bitStatus, hz, hv, hn]

/-- Both forms of BIT load their operand and test it. -/
theorem bitForms_exec {d8 : Byte} {a16 : Addr} {f : Instr × EaMode} (hf : f ∈ bitForms d8 a16) (s : State) :
    exec f.1 s = withLoad f.2 bitTest s := by
  simp only [bitForms, List.mem_cons, List.not_mem_nil, or_false] at hf
  rcases hf with rfl | rfl <;> rfl

/-- A BIT whose operand resolves completes, the machine it leaves written out. -/
theorem bitForms_resolves {d8 : Byte} {a16 : Addr} {f : Instr × EaMode} (hf : f ∈ bitForms d8 a16)
    {s u : State} {ea : Addr} {m : Byte} (hr : Resolves f.2 s ea m u) :
    exec f.1 s = .next { s with
      p := bitStatus s.a m s.p, pc := s.pc + BitVec.ofNat 16 f.2.length, cyc := s.cyc + Config.stepCycles,
      gfxLog := u.gfxLog, draws := u.draws } := by
  rw [bitForms_exec hf, withLoad_resolves hr, hr.state]
  rfl

/-- Settles O37: the status byte of the machine BIT leaves, flag by flag. -/
theorem bitTestsTheOperand : Obligations.BitTestsTheOperand := by
  intro d8 a16 f hf s u ea m hr
  refine ⟨_, bitForms_resolves hf hr, getFlag_zero_bitStatus s.a m s.p, getFlag_overflow_bitStatus s.a m s.p,
    getFlag_negative_bitStatus s.a m s.p, fun g hg => ?_, rfl⟩
  have hkept : g ≠ .zero ∧ g ≠ .overflow ∧ g ≠ .negative := by
    revert g
    decide
  obtain ⟨hz, hv, hn⟩ := hkept
  exact getFlag_other_bitStatus hz hv hn s.a m s.p

end Sys2Proof.Machine
end

section
/-! LDA and LDX (spec/42_load_store.md R150 to R152): the flags SetNZ leaves, and the machine either instruction leaves
from its immediate byte and wherever its operand resolves. -/

namespace Sys2Proof.Machine

/-! ### SetNZ -/

theorem getFlag_zero_setNZ (v p : Byte) : getFlag .zero (setNZ v p) = decide (v = 0#8) := by
  simp [setNZ, beq_eq_decide]

theorem getFlag_negative_setNZ (v p : Byte) : getFlag .negative (setNZ v p) = decide (128 ≤ v.toNat) := by
  rw [setNZ, getFlag_setFlag_same, BitVec.msb_eq_decide]

theorem getFlag_other_setNZ {g : Flag} (hz : g ≠ .zero) (hn : g ≠ .negative) (v p : Byte) :
    getFlag g (setNZ v p) = getFlag g p := by
  rw [setNZ, getFlag_setFlag_other hn, getFlag_setFlag_other hz]

/-- SetNZ on the status byte is the whole effect of a load on the flags (R150). -/
theorem loadFlags_of_setNZ {s t : State} {v : Byte} (hp : t.p = setNZ v s.p) : LoadFlags s t v := by
  unfold LoadFlags State.flag
  rw [hp]
  refine ⟨getFlag_zero_setNZ v s.p, getFlag_negative_setNZ v s.p, fun g hg => ?_⟩
  have hkept : g ≠ .zero ∧ g ≠ .negative := by
    revert g
    decide
  obtain ⟨hz, hn⟩ := hkept
  exact getFlag_other_setNZ hz hn v s.p

/-! ### LDA -/

/-- Every form of LDA with an address loads its operand into A. -/
theorem ldaForms_exec {d8 : Byte} {a16 : Addr} {f : Instr × EaMode} (hf : f ∈ ldaForms d8 a16) (s : State) :
    exec f.1 s = withLoad f.2 loadA s := by
  simp only [ldaForms, List.mem_cons, List.not_mem_nil, or_false] at hf
  rcases hf with rfl | rfl | rfl | rfl | rfl | rfl | rfl <;> rfl

/-- An LDA whose operand resolves completes, the machine it leaves written out. -/
theorem ldaForms_resolves {d8 : Byte} {a16 : Addr} {f : Instr × EaMode} (hf : f ∈ ldaForms d8 a16)
    {s u : State} {ea : Addr} {m : Byte} (hr : Resolves f.2 s ea m u) :
    exec f.1 s = .next { s with
      a := m, p := setNZ m s.p, pc := s.pc + BitVec.ofNat 16 f.2.length, cyc := s.cyc + Config.stepCycles,
      gfxLog := u.gfxLog, draws := u.draws } := by
  rw [ldaForms_exec hf, withLoad_resolves hr, hr.state]
  rfl

/-- Settles O38: the machine of the immediate form by computation, of the others by their operand's resolution; its
status byte is SetNZ's. -/
theorem ldaLoadsTheAccumulator : Obligations.LdaLoadsTheAccumulator := by
  intro d8 a16 s
  constructor
  · exact ⟨_, rfl, loadFlags_of_setNZ rfl, rfl⟩
  · intro f hf u ea m hr
    exact ⟨_, ldaForms_resolves hf hr, loadFlags_of_setNZ rfl, rfl⟩

/-! ### LDX -/

/-- Every form of LDX with an address loads its operand into X. -/
theorem ldxForms_exec {d8 : Byte} {a16 : Addr} {f : Instr × EaMode} (hf : f ∈ ldxForms d8 a16) (s : State) :
    exec f.1 s = withLoad f.2 loadX s := by
  simp only [ldxForms, List.mem_cons, List.not_mem_nil, or_false] at hf
  rcases hf with rfl | rfl | rfl | rfl <;> rfl

/-- An LDX whose operand resolves completes, the machine it leaves written out. -/
theorem ldxForms_resolves {d8 : Byte} {a16 : Addr} {f : Instr × EaMode} (hf : f ∈ ldxForms d8 a16)
    {s u : State} {ea : Addr} {m : Byte} (hr : Resolves f.2 s ea m u) :
    exec f.1 s = .next { s with
      x := m, p := setNZ m s.p, pc := s.pc + BitVec.ofNat 16 f.2.length, cyc := s.cyc + Config.stepCycles,
      gfxLog := u.gfxLog, draws := u.draws } := by
  rw [ldxForms_exec hf, withLoad_resolves hr, hr.state]
  rfl

/-- Settles O39: as for LDA, with X for A. -/
theorem ldxLoadsTheIndex : Obligations.LdxLoadsTheIndex := by
  intro d8 a16 s
  constructor
  · exact ⟨_, rfl, loadFlags_of_setNZ rfl, rfl⟩
  · intro f hf u ea m hr
    exact ⟨_, ldxForms_resolves hf hr, loadFlags_of_setNZ rfl, rfl⟩

end Sys2Proof.Machine
end

section
/-! RTS (spec/43_jumps_subroutines.md R162): the machine the popped address leaves. -/

namespace Sys2Proof.Machine

/-- `pc <- Pop16()` (R162): it always completes, with no extra cycle. -/
theorem returnFromCall_eq (s : State) :
    returnFromCall s = .ok 0 ((s.setSp (s.sp + 2#8)).setPc (popped16 s.mem s.sp)) := by
  rw [returnFromCall, pop16_eq, Run.andThen_ok]

/-- RTS completes from every machine, the machine it leaves written out (R162). -/
theorem exec_rts (s : State) :
    exec .rts s = .next { s with
      pc := popped16 s.mem s.sp, sp := s.sp + 2#8, cyc := s.cyc + Config.stepCycles } := by
  change (returnFromCall (s.advance 1)).finish s = _
  rw [returnFromCall_eq]
  rfl

/-- Settles O46: the popped value is the word of the two slots' bytes. -/
theorem rtsTakesThePoppedAddress : Obligations.RtsTakesThePoppedAddress := by
  intro s hi lo hhi hlo
  rw [peek_slot, Option.some.injEq] at hhi hlo
  rw [exec_rts, popped16, hhi, hlo]

end Sys2Proof.Machine
end

section
/-! BRK and RTI (spec/44_break_return.md R170, R171): what the memory of a break holds, and the machine either
instruction leaves. -/

namespace Sys2Proof.Machine

/-! ### The memory of a break -/

/-- The memory after the three pushes of a BRK at `s.pc` (R170): the address past the opcode, then the status. -/
def breakPushed (s : State) : Memory :=
  (pushed16 s.mem s.sp (s.pc + 1#16)).write (0x0100 + (s.sp - 2#8).toNat) (pushedStatus s.p)

/-- The low byte of the return address lies in the slot SP named: the status went two slots below. -/
theorem read_breakPushed_low {s : State} (hm : s.mem.wf = true) :
    (breakPushed s).read (0x0100 + s.sp.toNat) = lo8 (s.pc + 1#16) := by
  rw [breakPushed, Memory.read_write_other _ _ (slot_ne s.sp (by decide)), read_pushed16_low hm]

/-- The high byte lies one slot below. -/
theorem read_breakPushed_high {s : State} (hm : s.mem.wf = true) :
    (breakPushed s).read (0x0100 + (s.sp - 1#8).toNat) = hi8 (s.pc + 1#16) := by
  rw [breakPushed, Memory.read_write_other _ _ (slot_ne_slot s.sp (by decide)), read_pushed16_high hm]

/-- The status, with Break and Unused set, lies two slots below: the pushes before it kept the memory's form. -/
theorem read_breakPushed_status {s : State} (hm : s.mem.wf = true) :
    (breakPushed s).read (0x0100 + (s.sp - 2#8).toNat) = s.p ||| 0x30#8 :=
  Memory.read_write_same _ _ (Memory.wf_write _ _ (Memory.wf_write _ _ hm))

theorem read_breakPushed_other (s : State) {i : Nat} (hlow : i ≠ 0x0100 + s.sp.toNat)
    (hhigh : i ≠ 0x0100 + (s.sp - 1#8).toNat) (hstatus : i ≠ 0x0100 + (s.sp - 2#8).toNat) :
    (breakPushed s).read i = s.mem.read i := by
  rw [breakPushed, Memory.read_write_other _ _ hstatus.symm, read_pushed16_other _ _ hlow hhigh]

/-- A machine that holds the memory of a break differs from the one before it in three stack cells only. -/
theorem sameMemoryOutside_breakPushed {s t : State} (hm : t.mem = breakPushed s) (hz : t.prgSize = s.prgSize) :
    SameMemoryOutside [slot s.sp, slot (s.sp - 1#8), slot (s.sp - 2#8)] s t := by
  intro b hb
  simp only [List.forall_mem_cons, cellOf_slot] at hb
  obtain ⟨hlow, hhigh, hstatus, -⟩ := hb
  refine State.peek_eq_of_cell hz ?_
  rw [hm, read_breakPushed_other s hlow hhigh hstatus]

/-! ### The machines they leave -/

/-- BRK completes from every machine, the machine it leaves written out (R170). -/
theorem exec_brk (s : State) :
    exec .brk s = .next { s with
      mem := breakPushed s, sp := s.sp - 3#8, p := s.p ||| 0x04#8, pc := breakTarget s,
      cyc := s.cyc + Config.stepCycles } := by
  change (enterBreak (s.advance 1)).finish s = _
  rw [enterBreak_eq]
  rfl

/-- RTI completes from every machine, the machine it leaves written out (R171). -/
theorem exec_rti (s : State) :
    exec .rti s = .next { s with
      p := s.mem.read (0x0100 + (s.sp + 1#8).toNat) &&& 0xEF#8, pc := popped16 s.mem (s.sp + 1#8),
      sp := s.sp + 3#8, cyc := s.cyc + Config.stepCycles } := by
  change (leaveBreak (s.advance 1)).finish s = _
  rw [leaveBreak_eq]
  rfl

/-- The break target is the word of the two bytes that stand at the vector (R170). -/
theorem breakTarget_eq {s : State} {lo hi : Byte} (hlo : s.peek 0xFFFE#16 = some lo)
    (hhi : s.peek 0xFFFF#16 = some hi) : breakTarget s = wordOf hi lo := by
  rw [breakTarget, (State.peek_eq_some.1 hlo).2, (State.peek_eq_some.1 hhi).2]

/-! ### The statements -/

/-- Settles O47: the three slots of the memory of a break, its frame, and the word at the vector. -/
theorem brkEntersTheHandler : Obligations.BrkEntersTheHandler := by
  intro s lo hi hwf hlo hhi
  have hm := State.wf_mem hwf
  refine ⟨_, exec_brk s, ?_, ?_, ?_, sameMemoryOutside_breakPushed rfl rfl, ?_⟩
  · rw [peek_slot, read_breakPushed_low hm]
  · rw [peek_slot, read_breakPushed_high hm]
  · rw [peek_slot, read_breakPushed_status hm]
  · rw [breakTarget_eq hlo hhi]

/-- Settles O48: the popped status and the popped word are the bytes of the three slots. -/
theorem rtiRestoresStatusAndPc : Obligations.RtiRestoresStatusAndPc := by
  intro s b hi lo hb hhi hlo
  rw [peek_slot, Option.some.injEq] at hb hhi hlo
  have hsecond : s.sp + 1#8 + 1#8 = s.sp + 2#8 := by bv_omega
  have hthird : s.sp + 1#8 + 2#8 = s.sp + 3#8 := by bv_omega
  rw [exec_rti, popped16, hsecond, hthird, hb, hhi, hlo]

end Sys2Proof.Machine
end

section
/-! SEC, CLC and NOP (spec/45_flags_nop.md R180 to R182): one-byte instructions whose handler accesses no memory. -/

namespace Sys2Proof.Machine

/-- A one-byte instruction that accesses no memory completes: the pc past its byte, the handler's effect, and the
cycles of a step with no extra one (40_step_and_addressing.md R110, R118). -/
theorem withImplied_quiet (f : State → State) (s : State) :
    withImplied (quiet f) s = .next ((f (s.advance 1)).setCyc (s.cyc + Config.stepCycles)) := rfl

/-- Carry is bit 0 of the status byte (10_state.md R27): setting it ors the byte with that bit (R29). -/
theorem setFlag_carry_true (p : Byte) : setFlag .carry true p = p ||| 0x01#8 := rfl

/-- Clearing Carry keeps the other seven bits (10_state.md R29). -/
theorem setFlag_carry_false (p : Byte) : setFlag .carry false p = p &&& 0xFE#8 := rfl

/-- SEC completes from every machine, the machine it leaves written out (R180). -/
theorem exec_sec (s : State) :
    exec .sec s = .next { s with p := s.p ||| 0x01#8, pc := s.pc + 1#16, cyc := s.cyc + Config.stepCycles } := by
  change withImplied (quiet (State.setFlag .carry true)) s = _
  rw [withImplied_quiet, State.setFlag, setFlag_carry_true]
  rfl

/-- CLC completes from every machine, the machine it leaves written out (R181). -/
theorem exec_clc (s : State) :
    exec .clc s = .next { s with p := s.p &&& 0xFE#8, pc := s.pc + 1#16, cyc := s.cyc + Config.stepCycles } := by
  change withImplied (quiet (State.setFlag .carry false)) s = _
  rw [withImplied_quiet, State.setFlag, setFlag_carry_false]
  rfl

/-- NOP completes from every machine, only the pc and the cycle count moved on (R182). -/
theorem exec_nop (s : State) :
    exec .nop s = .next { s with pc := s.pc + 1#16, cyc := s.cyc + Config.stepCycles } :=
  withImplied_quiet id s

/-- Settles O51: the machine each of the three leaves. -/
theorem flagInstructionsAndNop : Obligations.FlagInstructionsAndNop :=
  fun s => ⟨exec_sec s, exec_clc s, exec_nop s⟩

end Sys2Proof.Machine
end

section
/-! The decoder and the encoder (spec/30_encoding.md R90 to R98): each opcode's format, that the decoder undoes the
encoder, and that it reads nothing but encodings. -/

namespace Sys2Proof

/-! ### One format at a time (R91) -/

theorem decode_implied {op : Byte} {i : Instr} (h : opcodeShape op = some (.implied i)) (rest : List Byte) :
    decode (op :: rest) = .ok (i, rest) := by
  simp only [decode, h]

theorem decode_byte {op : Byte} {f : Byte → Instr} (h : opcodeShape op = some (.byte f)) (d8 : Byte)
    (rest : List Byte) : decode (op :: d8 :: rest) = .ok (f d8, rest) := by
  simp only [decode, h]

theorem decode_word {op : Byte} {f : Addr → Instr} (h : opcodeShape op = some (.word f)) (lo hi : Byte)
    (rest : List Byte) : decode (op :: lo :: hi :: rest) = .ok (f (wordOf hi lo), rest) := by
  simp only [decode, h]

/-- The operand field of a word format holds its low byte first. -/
theorem decode_word_bytes {op : Byte} {f : Addr → Instr} (h : opcodeShape op = some (.word f)) (a16 : Addr)
    (rest : List Byte) : decode (op :: lo8 a16 :: hi8 a16 :: rest) = .ok (f a16, rest) := by
  rw [decode_word h, wordOf_hi8_lo8]

/-- Everything that decodes has one of the three formats. -/
theorem decode_ok {bytes rest : List Byte} {i : Instr} (h : decode bytes = .ok (i, rest)) :
    (∃ op, bytes = op :: rest ∧ opcodeShape op = some (.implied i)) ∨
      (∃ op d8 f, bytes = op :: d8 :: rest ∧ opcodeShape op = some (.byte f) ∧ i = f d8) ∨
      ∃ op lo hi f, bytes = op :: lo :: hi :: rest ∧ opcodeShape op = some (.word f) ∧ i = f (wordOf hi lo) := by
  unfold decode at h
  split at h
  · cases h
  · rename_i op tail
    split at h
    · cases h
    · rename_i hshape
      cases h
      exact .inl ⟨op, rfl, hshape⟩
    · rename_i f hshape
      split at h
      · rename_i d8 tail
        cases h
        exact .inr (.inl ⟨op, d8, f, rfl, hshape, rfl⟩)
      · cases h
    · rename_i f hshape
      split at h
      · rename_i lo hi tail
        cases h
        exact .inr (.inr ⟨op, lo, hi, f, rfl, hshape, rfl⟩)
      · cases h

/-! ### The opcode map against the encoder and the tables (R94 to R97) -/

/-- The encoder writes the opcode byte `op` and the operand field of this shape. -/
def Shape.EncodedWith (op : Byte) : Shape → Prop
  | .implied i => encode i = [op]
  | .byte f => ∀ d8, encode (f d8) = [op, d8]
  | .word f => ∀ a16, encode (f a16) = [op, lo8 a16, hi8 a16]

/-- How many operand bytes an instruction of this shape waits for (R91). -/
def Shape.operandBytes : Shape → Nat
  | .implied _ => 0
  | .byte _ => 1
  | .word _ => 2

theorem eq_ofNat_of_toNat {b : Byte} {n : Nat} (h : b.toNat = n) : b = BitVec.ofNat 8 n := by
  rw [← h, BitVec.ofNat_toNat, BitVec.setWidth_eq]

/-- The opcode map sends each byte to the shape that is encoded with it: by the 49 rows of the map. -/
theorem opcodeShape_encodedWith {op : Byte} {shape : Shape} (h : opcodeShape op = some shape) :
    shape.EncodedWith op := by
  unfold opcodeShape at h
  split at h
  case h_50 => cases h
  all_goals
    rename_i hop
    obtain rfl := eq_ofNat_of_toNat hop
    cases h
    simp [Shape.EncodedWith, encode]

/-- The bytes that have an entry in the opcode map are the ones the spec registers. -/
theorem opcodeShape_isSome (op : Byte) : (opcodeShape op).isSome = true ↔ op ∈ Machine.registeredOpcodes := by
  revert op
  decide

theorem opcodeShape_eq_none {op : Byte} : opcodeShape op = none ↔ op ∉ Machine.registeredOpcodes := by
  rw [← opcodeShape_isSome, Option.isSome_iff_ne_none, not_not]

/-- A registered opcode byte waits for as many operand bytes as its mode has (R92). -/
theorem opcodeShape_operandBytes {d : Descriptor} (h : d ∈ instructionTable) :
    (opcodeShape d.opcode).map Shape.operandBytes = some d.mode.operandBytes := by
  revert d
  decide

/-! ### The statements -/

/-- Settles O1: by the format of each instruction; the two bytes of an address make it again. -/
theorem decodeUndoesEncode : Obligations.DecodeUndoesEncode := by
  intro i rest
  cases i with
  | rts | brk | rti | sec | clc | nop => exact decode_implied rfl rest
  | adcImm d8 | adcZp d8 | adcZpX d8 | adcIndX d8 | adcIndY d8 | bitZp d8 | ldaImm d8 | ldaZp d8 | ldaZpX d8
  | ldaIndX d8 | ldaIndY d8 | ldxImm d8 | ldxZp d8 | ldxZpY d8 | staZp d8 | staZpX d8 | staIndX d8 | staIndY d8
  | stxZp d8 | stxZpY d8 | bcs d8 | bcc d8 | beq d8 | bne d8 | bvs d8 | bvc d8 | bpl d8 =>
    exact decode_byte rfl d8 rest
  | adcAbs a16 | adcAbsX a16 | adcAbsY a16 | bitAbs a16 | ldaAbs a16 | ldaAbsX a16 | ldaAbsY a16 | ldxAbs a16
  | ldxAbsY a16 | staAbs a16 | staAbsX a16 | staAbsY a16 | stxAbs a16 | jmpAbs a16 | jmpInd a16 | jsr a16 =>
    exact decode_word_bytes rfl a16 rest

/-- Settles O2: what decodes has a format, and the opcode map's shape is encoded with its opcode byte. -/
theorem decodedBytesAreTheEncoding : Obligations.DecodedBytesAreTheEncoding := by
  intro bytes i rest h
  rcases decode_ok h with ⟨op, rfl, hop⟩ | ⟨op, d8, f, rfl, hop, rfl⟩ | ⟨op, lo, hi, f, rfl, hop, rfl⟩
  · have henc : encode i = [op] := opcodeShape_encodedWith hop
    rw [henc]
    rfl
  · have henc : encode (f d8) = [op, d8] := opcodeShape_encodedWith hop d8
    rw [henc]
    rfl
  · have henc : encode (f (wordOf hi lo)) = [op, lo, hi] := by
      simpa using opcodeShape_encodedWith hop (wordOf hi lo)
    rw [henc]
    rfl

/-- Settles O3: each word by the decoder's computation. -/
theorem specWordsDecode : Obligations.SpecWordsDecode :=
  ⟨rfl, rfl, rfl, rfl, rfl, rfl, rfl, rfl, rfl⟩

/-- Settles O4: the map and the table byte by byte over the 256 bytes. -/
theorem registeredOpcodesAreTheSpecs : Obligations.RegisteredOpcodesAreTheSpecs :=
  ⟨opcodeShape_isSome, by decide, by decide⟩

end Sys2Proof
end

section
/-! What every step that completes keeps (spec/10_state.md R20 to R46, 40_step_and_addressing.md R113): the memory's
form, the image, Y, the run status, the record of facade accesses, and the cost in cycles. -/

namespace Sys2Proof.Machine

/-- A step that completes was taken by a running machine; the instruction kept what handlers keep, and the cycle count
went on by the cost of a step and 0, 513 or 514 more. -/
theorem step_next_kept {s t : State} (h : step s = .next t) :
    s.status = .running ∧ ∃ u e, Kept s u ∧ (e = 0 ∨ e = 513 + s.cyc % 2) ∧
      t = u.setCyc (s.cyc + Config.stepCycles + e) := by
  obtain ⟨hs, i, s1, -, hx, hi⟩ := step_next h
  obtain ⟨u, e, hk, he, rfl⟩ := exec_next hi
  rw [hx.cyc] at he ⊢
  exact ⟨hs, u, e, (Kept.of_external hx).trans hk, he, rfl⟩

/-- The invariant of the stored bytes in two parts: the canonical form, and that only cells that exist are listed. -/
theorem State.wf_iff {s : State} :
    s.wf = true ↔ s.mem.wf = true ∧ ∀ c ∈ s.mem, isCell s.prgSize c.1 = true := by
  rw [State.wf, Bool.and_eq_true, List.all_eq_true]

/-- What keeps the memory but for stores to storage keeps the memory's form. -/
theorem Kept.wf {s t : State} (h : Kept s t) (hwf : s.wf = true) : t.wf = true := by
  obtain ⟨hform, hcells⟩ := State.wf_iff.1 hwf
  rw [State.wf_iff, h.prgSize]
  exact ⟨h.mem.wf hform, h.mem.cells hcells⟩

/-- Stores to storage do not reach the image window. -/
theorem Kept.peek_image {s t : State} (h : Kept s t) {a : Addr} (ha : 0x8000 ≤ a.toNat) : t.peek a = s.peek a :=
  State.peek_eq_of_cell h.prgSize (h.mem.image (cellOf_vector_ge s.prgSize ha))

/-- Settles O12: a step stores at writable addresses only, and each reaches a cell that exists. -/
theorem stepKeepsTheMemoryForm : Obligations.StepKeepsTheMemoryForm := by
  intro s t hwf h
  obtain ⟨-, u, e, hk, -, rfl⟩ := step_next_kept h
  exact hk.wf hwf

/-- Settles O14: the cells a step stores in lie below those of the image. -/
theorem stepNeverChangesTheImage : Obligations.StepNeverChangesTheImage := by
  intro s t h
  obtain ⟨-, u, e, hk, -, rfl⟩ := step_next_kept h
  exact ⟨hk.prgSize, fun a ha => hk.peek_image ha⟩

/-- Settles O16: what every handler keeps, and the status the step began with. -/
theorem stepKeepsWhatNothingWrites : Obligations.StepKeepsWhatNothingWrites := by
  intro s t h
  obtain ⟨hs, u, e, hk, -, rfl⟩ := step_next_kept h
  exact ⟨hk.y, hk.status.trans hs, hk.gfxLog⟩

/-- Settles O19: the extra cycles are those of the instruction's writes. -/
theorem cycleCounterAdvances : Obligations.CycleCounterAdvances := by
  intro s t h
  obtain ⟨-, u, e, -, he, rfl⟩ := step_next_kept h
  exact ⟨e, rfl, he⟩

end Sys2Proof.Machine
end

section
/-! The step (spec/40_step_and_addressing.md R110 to R116, 60_exceptions.md R200 to R209): the fetch from the bytes it
reads, where it halts, and what a fault or a refusal comes from. -/

namespace Sys2Proof.Machine

/-! ### Runs of reads against decoding -/

theorem readRun_ok_nil {n : Nat} {a : Addr} {s t : State} (h : readRun n a s = .ok [] t) : t = s := by
  obtain rfl : 0 = n := readRun_length h
  cases h
  rfl

/-- A run of reads that answers a first byte is the read of that byte, then a run from the next address. -/
theorem readRun_ok_cons {n : Nat} {a : Addr} {s t : State} {b : Byte} {bs : List Byte}
    (h : readRun n a s = .ok (b :: bs) t) :
    ∃ m u, busRead a s = .ok b u ∧ readRun m (a + 1#16) u = .ok bs t := by
  cases n with
  | zero => cases h
  | succ n =>
    obtain ⟨b', u, hb, htail⟩ := Run.andThen_eq_ok.1 h
    obtain ⟨bs', v, hbs, hcons⟩ := Run.andThen_eq_ok.1 htail
    cases hcons
    exact ⟨n, u, hb, hbs⟩

/-- A run of reads over stored bytes answers them. -/
theorem readRun_peek {s : State} {a : Addr} {bytes : List Byte}
    (h : ∀ (j : Nat) (hj : j < bytes.length), s.peek (a + BitVec.ofNat 16 j) = some bytes[j]) :
    readRun bytes.length a s = .ok bytes s := by
  rw [readRun_stored s _ a fun j hj => (State.peek_eq_some.1 (h j hj)).1]
  congr 1
  refine List.ext_getElem (by simp) fun j hj hj' => ?_
  simp [h j hj']

/-! ### The 16-bit read (20_memory.md R53) -/

section read16
variable {a : Addr} {s s1 s2 : State} {lo hi : Byte} {why : Stop}

theorem read16_ok (hlo : busRead a s = .ok lo s1) (hhi : busRead (a + 1#16) s1 = .ok hi s2) :
    read16 a s = .ok (wordOf hi lo) s2 := by
  rw [read16, hlo, Run.andThen_ok, hhi, Run.andThen_ok]

theorem read16_low_stop (h : busRead a s = .stop why s1) : read16 a s = .stop why s1 := by
  rw [read16, h, Run.andThen_stop]

theorem read16_high_stop (hlo : busRead a s = .ok lo s1) (h : busRead (a + 1#16) s1 = .stop why s2) :
    read16 a s = .stop why s2 := by
  rw [read16, hlo, Run.andThen_ok, h, Run.andThen_stop]

end read16

/-! ### The fetch -/

section fetch
variable {s u t : State} {op : Byte}

/-- The fetch after the opcode read (R111, R112): the pc still names the opcode. -/
theorem fetch_implied {i : Instr} (hop : busRead s.pc s = .ok op u) (hsh : opcodeShape op = some (.implied i)) :
    fetch s = .ok i u := by
  simp only [fetch, hop, Run.andThen_ok, hsh]

theorem fetch_byte {f : Byte → Instr} (hop : busRead s.pc s = .ok op u) (hsh : opcodeShape op = some (.byte f)) :
    fetch s = (busRead (s.pc + 1#16) u).andThen fun d8 s => .ok (f d8) s := by
  simp only [fetch, hop, Run.andThen_ok, hsh, (busRead_ok_external hop).pc]

theorem fetch_word {f : Addr → Instr} (hop : busRead s.pc s = .ok op u) (hsh : opcodeShape op = some (.word f)) :
    fetch s = (read16 (s.pc + 1#16) u).andThen fun a16 s => .ok (f a16) s := by
  simp only [fetch, hop, Run.andThen_ok, hsh, (busRead_ok_external hop).pc]

theorem fetch_unregistered (hop : busRead s.pc s = .ok op u) (hsh : opcodeShape op = none) :
    fetch s = .stop (.raise (.unimplementedOpcode op)) u := by
  simp only [fetch, hop, Run.andThen_ok, hsh]

theorem fetch_opcode_stop {why : Stop} (hop : busRead s.pc s = .stop why t) : fetch s = .stop why t := by
  simp only [fetch, hop, Run.andThen_stop]

end fetch

/-- The fetch answers the instruction that the bytes it reads decode to (R110, R116). -/
theorem fetch_of_readRun {s t : State} {n : Nat} {bytes : List Byte} {i : Instr}
    (hrun : readRun n s.pc s = .ok bytes t) (hdec : decode bytes = .ok (i, [])) : fetch s = .ok i t := by
  rcases decode_ok hdec with ⟨op, rfl, hop⟩ | ⟨op, d8, f, rfl, hop, rfl⟩ | ⟨op, lo, hi, f, rfl, hop, rfl⟩
  · obtain ⟨_, u, hu, hnil⟩ := readRun_ok_cons hrun
    rw [readRun_ok_nil hnil, fetch_implied hu hop]
  · obtain ⟨_, u, hu, htail⟩ := readRun_ok_cons hrun
    obtain ⟨_, v, hv, hnil⟩ := readRun_ok_cons htail
    rw [readRun_ok_nil hnil, fetch_byte hu hop, hv, Run.andThen_ok]
  · obtain ⟨_, u, hu, htail⟩ := readRun_ok_cons hrun
    obtain ⟨_, v, hv, htail'⟩ := readRun_ok_cons htail
    obtain ⟨_, w, hw, hnil⟩ := readRun_ok_cons htail'
    rw [readRun_ok_nil hnil, fetch_word hu hop, read16_ok hv hw, Run.andThen_ok]

theorem step_of_fetch {s t : State} {i : Instr} (hs : s.status = .running) (h : fetch s = .ok i t) :
    step s = exec i t := by
  simp only [step, hs, h]

/-- The address one or two past `a`, as the spec counts it (mod 65536). -/
theorem ofNat_toNat_add (a : Addr) (k : Nat) : BitVec.ofNat 16 (a.toNat + k) = a + BitVec.ofNat 16 k := by
  rw [BitVec.ofNat_add, BitVec.ofNat_toNat, BitVec.setWidth_eq]

/-- A fetch whose first operand byte cannot be read. -/
theorem fetch_first_operand_stop {s u t : State} {op : Byte} {why : Stop} {shape : Shape}
    (hop : busRead s.pc s = .ok op u) (hsh : opcodeShape op = some shape) (hn : 1 ≤ shape.operandBytes)
    (h : busRead (s.pc + 1#16) u = .stop why t) : fetch s = .stop why t := by
  cases shape with
  | implied i => cases hn
  | byte f => rw [fetch_byte hop hsh, h, Run.andThen_stop]
  | word f => rw [fetch_word hop hsh, read16_low_stop h, Run.andThen_stop]

/-- A fetch whose second operand byte cannot be read. -/
theorem fetch_second_operand_stop {s u v t : State} {op lo : Byte} {why : Stop} {shape : Shape}
    (hop : busRead s.pc s = .ok op u) (hsh : opcodeShape op = some shape) (hn : shape.operandBytes = 2)
    (hlo : busRead (s.pc + 1#16) u = .ok lo v) (h : busRead (s.pc + 1#16 + 1#16) v = .stop why t) :
    fetch s = .stop why t := by
  cases shape with
  | implied i => cases hn
  | byte f => cases hn
  | word f => rw [fetch_word hop hsh, read16_high_stop hlo h, Run.andThen_stop]

/-- A registered opcode byte has a shape with the operand bytes of its row's mode. -/
theorem registered_shape {d : Descriptor} (h : d ∈ instructionTable) :
    ∃ shape, opcodeShape d.opcode = some shape ∧ shape.operandBytes = d.mode.operandBytes := by
  simpa using opcodeShape_operandBytes h

/-! ### Refusals -/

/-- A step is refused for a write into the image alone: no fetch is refused. -/
theorem step_refused {s : State} {r : Refusal} (h : step s = .refused r) :
    ∃ a, r = .prgRomWrite a ∧ 0x8000 ≤ a.toNat := by
  unfold step at h
  split at h
  · cases h
  · split at h
    · exact exec_refused h
    · rename_i why t hf
      cases why with
      | raise e => cases h
      | refuse r' => rcases (fetch_stop hf).2 with (⟨_, hr, -⟩ | ⟨hr, -⟩) | ⟨_, hr, -⟩ <;> cases hr

/-! ### The statements -/

/-- Settles O5: the fetch makes those reads and answers what they decode to. -/
theorem stepRunsTheFetchedInstruction : Obligations.StepRunsTheFetchedInstruction :=
  fun _ _ _ _ _ hs hrun hdec => step_of_fetch hs (fetch_of_readRun hrun hdec)

/-- Settles O6: reads of stored bytes change nothing. -/
theorem stepRunsTheStoredInstruction : Obligations.StepRunsTheStoredInstruction :=
  fun _ _ _ hs hpeek hdec => step_of_fetch hs (fetch_of_readRun (readRun_peek hpeek) hdec)

/-- Settles O7: the opcode map has no entry for a byte that is not registered. -/
theorem unregisteredOpcodeHalts : Obligations.UnregisteredOpcodeHalts :=
  fun _ _ _ hs hop hnot => step_fetch_raise hs (fetch_unregistered hop (opcodeShape_eq_none.2 hnot))

/-- Settles O59: the three reads of a fetch in their order. -/
theorem unreadableFetchHalts : Obligations.UnreadableFetchHalts := by
  intro s t e hs halted
  refine ⟨fun h => step_fetch_raise hs (fetch_opcode_stop h), fun d hd u hop => ?_⟩
  obtain ⟨shape, hsh, hlen⟩ := registered_shape hd
  rw [← hlen, ofNat_toNat_add, ofNat_toNat_add]
  refine ⟨fun hn h => step_fetch_raise hs (fetch_first_operand_stop hop hsh hn h), fun hn lo v hlo h => ?_⟩
  refine step_fetch_raise hs (fetch_second_operand_stop hop hsh hn hlo ?_)
  rwa [BitVec.add_assoc]

/-- Settles O8: no other branch of the step is taken. -/
theorem haltedMachineTakesNoStep : Obligations.HaltedMachineTakesNoStep := by
  intro s e hs
  simp only [step, hs]

/-- Settles O9: a fault carries the machine of the start, with the memory and the image size of the raise, which are
those of the start too. -/
theorem errorKeepsRegistersAndMemory : Obligations.ErrorKeepsRegistersAndMemory := by
  intro s f hs h
  obtain ⟨u, hmem, hsize, hlog, hf, -⟩ := step_fault hs h
  have hpost : f.post = u.abandon s f.error := by rw [hf, RuntimeError.toFault_post, ← hf]
  rw [hpost, State.abandon, hmem, hsize]
  exact ⟨rfl, hlog⟩

/-- Settles O10: the reasons a step can stop for, error by error. -/
theorem errorsHaveTheSpecsCauses : Obligations.ErrorsHaveTheSpecsCauses := by
  intro s f hs h
  obtain ⟨u, -, -, -, hf, hwhy⟩ := step_fault hs h
  have hlog : f.post.gfxLog = u.gfxLog := by rw [hf, RuntimeError.toFault_post, State.abandon_gfxLog]
  rw [hlog]
  rcases hwhy with (⟨a, he, ha⟩ | ⟨he, hlast⟩) | ⟨op, he, hop⟩
  · obtain he : f.error = .invalidBusAddress a := by injection he
    simpa [he] using route_unmapped.1 ha
  · obtain he : f.error = .invalidRegisterAccess := by injection he
    simpa [he] using hlast
  · simpa [he] using opcodeShape_eq_none.1 hop

/-- Settles O11: as `step_refused` says. -/
theorem onlyImageWritesAreRefused : Obligations.OnlyImageWritesAreRefused := fun _ _ => step_refused

end Sys2Proof.Machine
end

section
/-! The bus (spec/20_memory.md R51 to R69, R77): what a read and a write do in each region, the image in its window, the
16-bit read, and the bulk transfer. -/

namespace Sys2Proof.Machine

/-! ### Cells and reads, region by region -/

/-- Outside RAM and the image an address names its own cell (R61, R66). -/
theorem cellOf_self (z : PrgSize) {a : Addr} (hram : 0x2000 ≤ a.toNat) (himage : a.toNat < 0x8000) :
    cellOf z a = a.toNat := by
  unfold cellOf
  split
  case h_1 hr => exact absurd (route_ram.1 hr) (Nat.not_lt.2 hram)
  case h_2 hr => exact absurd (route_prgRom.1 hr) (Nat.not_le.2 himage)
  all_goals rfl

/-- The inert store and cartridge RAM: storage under its own address (R61, R66). -/
theorem writable_plain {a : Addr} (h : (0x4000 ≤ a.toNat ∧ a.toNat < 0x4021 ∧ a.toNat ≠ 0x4014) ∨
    (0x6000 ≤ a.toNat ∧ a.toNat < 0x8000)) : (route a).writable = true := storageAddress_iff.1 (.inr h)

theorem busRead_plain {a : Addr} (h : (0x4000 ≤ a.toNat ∧ a.toNat < 0x4021 ∧ a.toNat ≠ 0x4014) ∨
    (0x6000 ≤ a.toNat ∧ a.toNat < 0x8000)) (s : State) : busRead a s = .ok (s.mem.read a.toNat) s := by
  rw [busRead_stored (Region.stored_of_writable (writable_plain h)),
    cellOf_self _ (by omega) (by omega)]

theorem busWrite_plain {a : Addr} (h : (0x4000 ≤ a.toNat ∧ a.toNat < 0x4021 ∧ a.toNat ≠ 0x4014) ∨
    (0x6000 ≤ a.toNat ∧ a.toNat < 0x8000)) (v : Byte) (c : Nat) (s : State) :
    busWrite a v c s = .ok 0 (s.setMem (s.mem.write a.toNat v)) := by
  rw [busWrite_writable (writable_plain h), cellOf_self _ (by omega) (by omega)]

theorem stored_image {a : Addr} (h : 0x8000 ≤ a.toNat) : (route a).stored = true := by rw [route_prgRom.2 h]; rfl

theorem busRead_image {a : Addr} (h : 0x8000 ≤ a.toNat) (s : State) :
    busRead a s = .ok (s.mem.read (0x8000 + (a.toNat - 0x8000) % s.prgSize.bytes)) s := by
  rw [busRead_stored (stored_image h), cellOf_prgRom _ h]

theorem busWrite_image {a : Addr} (h : 0x8000 ≤ a.toNat) (v : Byte) (c : Nat) (s : State) :
    busWrite a v c s = .stop (.refuse (.prgRomWrite a)) s := by
  rw [busWrite, route_prgRom.2 h]

theorem busRead_hole {a : Addr} (h : 0x4021 ≤ a.toNat ∧ a.toNat < 0x6000) (s : State) :
    busRead a s = .stop (.raise (.invalidBusAddress a)) s := by
  rw [busRead, route_unmapped.2 h]

theorem busWrite_hole {a : Addr} (h : 0x4021 ≤ a.toNat ∧ a.toNat < 0x6000) (v : Byte) (c : Nat) (s : State) :
    busWrite a v c s = .stop (.raise (.invalidBusAddress a)) s := by
  rw [busWrite, route_unmapped.2 h]

theorem busRead_port (s : State) : busRead 0x4014#16 s = .ok (Config.portByte s.draws) s.nextDraw := by
  rw [busRead, route_bulkTrigger.2 rfl, readPort]

theorem busWrite_port (v : Byte) (c : Nat) (s : State) : busWrite 0x4014#16 v c s = bulkTransfer v c s := by
  rw [busWrite, route_bulkTrigger.2 rfl]

section graphics
variable {a : Addr} {v : Byte} {c : Nat} {s : State}

/-- A read of the graphics window is one of the facade's register, as the spec counts it (R55, R59). -/
theorem busRead_graphics_byte (ha : 0x2000 ≤ a.toNat ∧ a.toNat < 0x4000) {b : Byte}
    (h : Config.gfxRead s.gfxLog (BitVec.ofNat 3 (a.toNat % 8)) = .byte b) :
    busRead a s = .ok b (s.record (.read (BitVec.ofNat 3 (a.toNat % 8)) (.byte b))) := by
  rw [busRead, route_graphics.2 ha, gfxRegOf_eq]
  exact gfxRead_ok.2 ⟨h, rfl⟩

theorem busRead_graphics_fails (ha : 0x2000 ≤ a.toNat ∧ a.toNat < 0x4000)
    (h : Config.gfxRead s.gfxLog (BitVec.ofNat 3 (a.toNat % 8)) = .invalidRegisterAccess) :
    busRead a s = .stop (.raise .invalidRegisterAccess)
      (s.record (.read (BitVec.ofNat 3 (a.toNat % 8)) .invalidRegisterAccess)) := by
  rw [busRead, route_graphics.2 ha, gfxRegOf_eq]
  exact gfxRead_stop.2 ⟨h, rfl, rfl⟩

theorem busWrite_graphics_accepted (ha : 0x2000 ≤ a.toNat ∧ a.toNat < 0x4000)
    (h : Config.gfxWriteAccepted s.gfxLog (BitVec.ofNat 3 (a.toNat % 8)) v = true) :
    busWrite a v c s = .ok 0 (s.record (.write (BitVec.ofNat 3 (a.toNat % 8)) v true)) := by
  rw [busWrite, route_graphics.2 ha, gfxRegOf_eq]
  exact if_pos h

theorem busWrite_graphics_fails (ha : 0x2000 ≤ a.toNat ∧ a.toNat < 0x4000)
    (h : Config.gfxWriteAccepted s.gfxLog (BitVec.ofNat 3 (a.toNat % 8)) v = false) :
    busWrite a v c s = .stop (.raise .invalidRegisterAccess)
      (s.record (.write (BitVec.ofNat 3 (a.toNat % 8)) v false)) := by
  rw [busWrite, route_graphics.2 ha, gfxRegOf_eq]
  exact if_neg (by rw [h]; exact Bool.false_ne_true)

end graphics

/-- Settles O20: one region at a time. -/
theorem busReadRoutes : Obligations.BusReadRoutes := by
  intro a s
  refine ⟨fun h => busRead_ram h s, fun hlo hhi => ?_, fun h => ?_, fun hlo hhi hne => ?_, fun hlo hhi => ?_,
    fun hlo hhi => ?_, fun h => busRead_image h s⟩
  · exact ⟨fun b => busRead_graphics_byte ⟨hlo, hhi⟩, busRead_graphics_fails ⟨hlo, hhi⟩⟩
  · obtain rfl : a = 0x4014#16 := BitVec.eq_of_toNat_eq h
    exact busRead_port s
  · exact busRead_plain (.inl ⟨hlo, by omega, hne⟩) s
  · exact busRead_hole ⟨hlo, by omega⟩ s
  · exact busRead_plain (.inr ⟨hlo, by omega⟩) s

/-- Settles O21: one region at a time. -/
theorem busWriteRoutes : Obligations.BusWriteRoutes := by
  intro a v c s
  refine ⟨fun h => busWrite_ram h v c s, fun hlo hhi => ?_, fun hlo hhi hne => ?_, fun hlo hhi => ?_,
    fun hlo hhi => ?_, fun h => busWrite_image h v c s⟩
  · exact ⟨busWrite_graphics_accepted ⟨hlo, hhi⟩, busWrite_graphics_fails ⟨hlo, hhi⟩⟩
  · exact busWrite_plain (.inl ⟨hlo, by omega, hne⟩) v c s
  · exact busWrite_hole ⟨hlo, by omega⟩ v c s
  · exact busWrite_plain (.inr ⟨hlo, by omega⟩) v c s

/-! ### The image and the 16-bit read -/

/-- The `i`-th address of the image window reads the image byte at `i` modulo its length (R64). -/
theorem peek_image (s : State) {i : Nat} (h : i < 0x8000) :
    s.peek (BitVec.ofNat 16 (0x8000 + i)) = some (s.mem.read (0x8000 + i % s.prgSize.bytes)) := by
  have ha : (BitVec.ofNat 16 (0x8000 + i)).toNat = 0x8000 + i := by
    rw [BitVec.toNat_ofNat, Nat.mod_eq_of_lt (by omega)]
  have hge : 0x8000 ≤ (BitVec.ofNat 16 (0x8000 + i)).toNat := by omega
  rw [State.peek_stored (stored_image hge), cellOf_prgRom _ hge, ha, Nat.add_sub_cancel_left]

/-- Settles O23: both halves of the window are the same index modulo a half-size image's length. -/
theorem imageFillsItsWindow : Obligations.ImageFillsItsWindow := by
  intro s k
  constructor
  · intro hz hk
    have hsecond : BitVec.ofNat 16 (0xC000 + k) = BitVec.ofNat 16 (0x8000 + (0x4000 + k)) := by congr 1; omega
    rw [hsecond, peek_image s (by omega), peek_image s (by omega), hz, PrgSize.bytes, Nat.add_mod_left,
      Nat.mod_eq_of_lt hk]
    exact ⟨rfl, rfl⟩
  · intro hz hk
    rw [peek_image s hk, hz, PrgSize.bytes, Nat.mod_eq_of_lt hk]

/-- Settles O24: the word of the two bytes. -/
theorem read16IsLittleEndian : Obligations.Read16IsLittleEndian := by
  intro a s s1 s2 lo hi hlo hhi
  rw [ofNat_toNat_add] at hhi
  exact ⟨_, read16_ok hlo hhi, wordOf_toNat hi lo⟩

/-! ### The bulk transfer -/

/-- The page a byte names (R62). -/
theorem wordOf_zero (v : Byte) : wordOf v 0#8 = BitVec.ofNat 16 (v.toNat * 256) := by
  refine BitVec.eq_of_toNat_eq ?_
  have hv := v.isLt
  simp only [wordOf_toNat, BitVec.toNat_ofNat]
  omega

/-- The addresses of a page. -/
theorem page_add (v : Byte) {i : Nat} (h : i < 256) :
    wordOf v 0#8 + BitVec.ofNat 16 i = wordOf v (BitVec.ofNat 8 i) := by
  refine BitVec.eq_of_toNat_eq ?_
  have hv := v.isLt
  rw [wordOf_zero, ← BitVec.ofNat_add, BitVec.toNat_ofNat, wordOf_toNat, BitVec.toNat_ofNat,
    Nat.mod_eq_of_lt h, Nat.mod_eq_of_lt (by omega)]

/-- Settles O25: 256 reads of storage change nothing and answer the stored bytes. -/
theorem bulkTransferCopiesThePage : Obligations.BulkTransferCopiesThePage := by
  intro v c s hpage
  have hstored : ∀ i, i < 256 → (route (wordOf v 0#8 + BitVec.ofNat 16 i)).stored = true := fun i hi => by
    rw [page_add v hi]
    exact hpage _
  rw [busWrite_port, bulkTransfer, readRun_stored s 256 _ hstored, Run.andThen_ok]
  simp only [wordOf_zero, ← BitVec.ofNat_add]
  rfl

/-- A bulk transfer whose reads stop loads nothing. -/
theorem bulkTransfer_stop {v : Byte} {c : Nat} {s t : State} {why : Stop}
    (h : readRun 256 (wordOf v 0#8) s = .stop why t) : busWrite 0x4014#16 v c s = .stop why t := by
  rw [busWrite_port, bulkTransfer, h, Run.andThen_stop]

/-- A run of reads whose first read stops. -/
theorem readRun_stop {n : Nat} {a : Addr} {s t : State} {why : Stop} (h : busRead a s = .stop why t) :
    readRun (n + 1) a s = .stop why t := by
  rw [readRun, h, Run.andThen_stop]

/-- A run of `n + m` reads whose first `n` answer and whose others stop. -/
theorem readRun_add_stop {n m : Nat} {a : Addr} {s u t : State} {bs : List Byte} {why : Stop}
    (hfirst : readRun n a s = .ok bs u) (hrest : readRun m (a + BitVec.ofNat 16 n) u = .stop why t) :
    readRun (n + m) a s = .stop why t := by
  rw [readRun_add, hfirst, Run.andThen_ok, hrest, Run.andThen_stop]

/-- Page 0x40 is read up to 0x4020, the byte at 0x4014 a free value; the read at 0x4021 raises (R62, D18, D20). -/
theorem readRun_page40 (s : State) :
    readRun 256 0x4000#16 s = .stop (.raise (.invalidBusAddress 0x4021#16)) s.nextDraw := by
  have hbelow : ∀ i, i < 20 → (route (0x4000#16 + BitVec.ofNat 16 i)).stored = true := by decide
  have habove : ∀ i, i < 12 → (route (0x4015#16 + BitVec.ofNat 16 i)).stored = true := by decide
  have hport : readRun 1 0x4014#16 s = .ok [Config.portByte s.draws] s.nextDraw := by
    rw [readRun, busRead_port]
    rfl
  have hhole : readRun 223 0x4021#16 s.nextDraw = .stop (.raise (.invalidBusAddress 0x4021#16)) s.nextDraw :=
    readRun_stop (busRead_hole (by decide) _)
  exact readRun_add_stop (n := 20) (readRun_stored s _ _ hbelow)
    (readRun_add_stop (n := 1) hport (readRun_add_stop (n := 12) (readRun_stored _ _ _ habove) hhole))

/-- Settles O26: the first read of the pages above 0x40 raises, the 34th of page 0x40. -/
theorem bulkTransferFromTheHoleRaises : Obligations.BulkTransferFromTheHoleRaises := by
  intro v c s
  constructor
  · intro hlo hhi
    have hhole : 0x4021 ≤ (wordOf v 0#8).toNat ∧ (wordOf v 0#8).toNat < 0x6000 := by
      rw [wordOf_toNat]
      simp only [BitVec.toNat_ofNat]
      omega
    rw [← wordOf_zero]
    exact bulkTransfer_stop (readRun_stop (busRead_hole hhole s))
  · rintro rfl
    exact bulkTransfer_stop (readRun_page40 s)

end Sys2Proof.Machine
end

section
/-! Which handler each addressed form runs (spec/41_alu.md to 46_branches.md), by the forms' lists. -/

namespace Sys2Proof.Machine

section forms
variable {d8 : Byte} {a16 : Addr} {f : Instr × EaMode}

theorem adcForms_exec (hf : f ∈ adcForms d8 a16) (s : State) : exec f.1 s = withLoad f.2 addWithCarry s := by
  simp only [adcForms, List.mem_cons, List.not_mem_nil, or_false] at hf
  rcases hf with rfl | rfl | rfl | rfl | rfl | rfl | rfl <;> rfl

theorem staForms_exec (hf : f ∈ staForms d8 a16) (s : State) : exec f.1 s = withOperand f.2 storeA s := by
  simp only [staForms, List.mem_cons, List.not_mem_nil, or_false] at hf
  rcases hf with rfl | rfl | rfl | rfl | rfl | rfl | rfl <;> rfl

theorem stxForms_exec (hf : f ∈ stxForms d8 a16) (s : State) : exec f.1 s = withOperand f.2 storeX s := by
  simp only [stxForms, List.mem_cons, List.not_mem_nil, or_false] at hf
  rcases hf with rfl | rfl | rfl <;> rfl

theorem jmpForms_exec (hf : f ∈ jmpForms a16) (s : State) : exec f.1 s = withOperand f.2 jump s := by
  simp only [jmpForms, List.mem_cons, List.not_mem_nil, or_false] at hf
  rcases hf with rfl | rfl <;> rfl

theorem branchForms_exec {b : Instr × Flag × Bool} (hb : b ∈ branchForms d8) (s : State) :
    exec b.1 s = withOperand (.relative d8) (branchIf b.2.1 b.2.2) s := by
  simp only [branchForms, List.mem_cons, List.not_mem_nil, or_false] at hb
  rcases hb with rfl | rfl | rfl | rfl | rfl | rfl | rfl <;> rfl

/-- Every addressed form runs some handler once its operand has been read (40_step_and_addressing.md R115). -/
theorem addressedForms_exec (hf : f ∈ addressedForms d8 a16) (s : State) :
    ∃ handler, exec f.1 s = withOperand f.2 handler s := by
  simp only [addressedForms, List.mem_append, or_assoc] at hf
  rcases hf with hadc | hbit | hlda | hldx | hsta | hstx | hjmp | hjsr | hbranch
  · exact ⟨_, adcForms_exec hadc s⟩
  · exact ⟨_, bitForms_exec hbit s⟩
  · exact ⟨_, ldaForms_exec hlda s⟩
  · exact ⟨_, ldxForms_exec hldx s⟩
  · exact ⟨_, staForms_exec hsta s⟩
  · exact ⟨_, stxForms_exec hstx s⟩
  · exact ⟨_, jmpForms_exec hjmp s⟩
  · obtain rfl := List.mem_singleton.1 hjsr
    exact ⟨call, rfl⟩
  · obtain ⟨b, hb, rfl⟩ := List.mem_map.1 hbranch
    exact ⟨_, branchForms_exec hb s⟩

end forms

end Sys2Proof.Machine
end

section
/-! The resolver (spec/40_step_and_addressing.md R114 to R130): the effective address of each mode, where the operand
can be read, and how an instruction ends whose pointer or operand cannot. -/

namespace Sys2Proof.Machine

/-! ### Addresses in integer arithmetic -/

theorem zext16_eq (b : Byte) : zext16 b = BitVec.ofNat 16 b.toNat := (BitVec.ofNat_toNat 16 b).symm

theorem add_zext16 (a : Addr) (b : Byte) : a + zext16 b = BitVec.ofNat 16 (a.toNat + b.toNat) := by
  rw [ofNat_toNat_add, zext16_eq]

theorem add_sext16 (a : Addr) (b : Byte) : a + sext16 b = BitVec.ofInt 16 (a.toNat + b.toInt) := by
  rw [BitVec.ofInt_add, BitVec.ofInt_natCast, BitVec.ofNat_toNat, BitVec.setWidth_eq]
  rfl

theorem wordOf_eq_ofNat (hi lo : Byte) : wordOf hi lo = BitVec.ofNat 16 (hi.toNat * 256 + lo.toNat) := by
  rw [← wordOf_toNat, BitVec.ofNat_toNat, BitVec.setWidth_eq]

/-- Settles O31: each sum in integer arithmetic. -/
theorem directEffectiveAddresses : Obligations.DirectEffectiveAddresses := by
  intro d8 a16 s
  have answers : ∀ {ea ea' : Addr}, ea = ea' → Run.ok ea s = Run.ok ea' s := fun h => h ▸ rfl
  exact ⟨answers (zext16_eq d8), rfl, rfl, rfl, answers (add_zext16 a16 s.x), answers (add_zext16 a16 s.y),
    answers (add_sext16 s.pc d8)⟩

/-! ### Pointers -/

theorem busRead_peek {a : Addr} {s : State} {b : Byte} (h : s.peek a = some b) : busRead a s = .ok b s := by
  obtain ⟨hstored, hbyte⟩ := State.peek_eq_some.1 h
  rw [busRead_stored hstored, hbyte]

/-- Without the page quirk the pointer of AbsoluteIndirect is a 16-bit read (R128). -/
theorem effectiveAddress_absoluteIndirect (a16 : Addr) (s : State) :
    effectiveAddress (.absoluteIndirect a16) s = read16 a16 s := by
  have hhigh : pointerHigh a16 = a16 + 1#16 := by simp [pointerHigh, Config.jmpIndirectPageWrap]
  rw [effectiveAddress, readPointer, hhigh]
  rfl

/-- Settles O32: each pointer is a 16-bit read, and Y is added to what it answers. -/
theorem indirectEffectiveAddresses : Obligations.IndirectEffectiveAddresses := by
  refine ⟨fun d8 lo hi s hlo hhi => ?_, fun d8 lo hi s hlo hhi => ?_, fun a16 lo hi s s1 s2 hlo hhi => ?_⟩
  · rw [BitVec.ofNat_add] at hhi
    rw [← wordOf_eq_ofNat]
    exact read16_ok (busRead_peek hlo) (busRead_peek hhi)
  · rw [BitVec.ofNat_add] at hhi
    rw [effectiveAddress, zext16_eq, read16_ok (busRead_peek hlo) (busRead_peek hhi), Run.andThen_ok, add_zext16,
      wordOf_toNat]
  · rw [ofNat_toNat_add] at hhi
    rw [effectiveAddress_absoluteIndirect, read16_ok hlo hhi, wordOf_eq_ofNat]

/-! ### Where the operand can and cannot be read -/

/-- Computing an address only reads (R114). -/
theorem effectiveAddress_ok_external {o : EaMode} {s u : State} {ea : Addr} (h : effectiveAddress o s = .ok ea u) :
    OnlyExternal s u := (ReadsOnly.effectiveAddress o s).1 _ _ h

/-- Settles O33: what a read at the effective address answers, region by region. -/
theorem readableOperandsResolve : Obligations.ReadableOperandsResolve := by
  intro o s u ea hea
  have hx := effectiveAddress_ok_external hea
  refine ⟨hx, fun m hm => ⟨u, hea, busRead_peek ?_⟩, ?_, fun hlo hhi m hm =>
    ⟨u, hea, busRead_graphics_byte ⟨hlo, hhi⟩ hm⟩⟩
  · rw [hx.peek ea]
    exact hm
  · rintro rfl
    exact ⟨u, hea, busRead_port u⟩

/-- Settles O34: the operand read raises before the handler runs, whatever the handler. -/
theorem unreadableOperandHalts : Obligations.UnreadableOperandHalts := by
  intro d8 a16 f hf s u ea hea
  obtain ⟨handler, hexec⟩ := addressedForms_exec hf s
  rw [hexec]
  refine ⟨fun hlo hhi => ?_, fun hlo hhi hfail => ?_⟩
  · exact withOperand_operand_raise hea (busRead_hole ⟨hlo, by omega⟩ u) handler
  · exact withOperand_operand_raise hea (busRead_graphics_fails ⟨hlo, hhi⟩ hfail) handler

/-- JMP AbsoluteIndirect whose pointer read raises (R128, 60_exceptions.md R204). -/
theorem exec_jmpInd_pointer_raise {a16 : Addr} {s t : State} {e : RuntimeError}
    (h : read16 a16 (s.advance 3) = .stop (.raise e) t) : exec (.jmpInd a16) s =
      .fault (e.toFault { s with gfxLog := t.gfxLog, draws := t.draws, status := .halted e }) := by
  rw [← effectiveAddress_absoluteIndirect] at h
  exact withOperand_pointer_raise h jump

/-- Settles O60: the low pointer byte raises, or the high one does. -/
theorem unreadablePointerHalts : Obligations.UnreadablePointerHalts := by
  refine ⟨fun o s u why => effectiveAddress_stop, ?_⟩
  intro a16 s t e halted
  refine ⟨fun h => ?_, fun lo u hlo h => ?_, fun hlo hhi => ?_, ?_⟩
  · exact exec_jmpInd_pointer_raise (read16_low_stop h)
  · rw [ofNat_toNat_add] at h
    exact exec_jmpInd_pointer_raise (read16_high_stop hlo h)
  · exact exec_jmpInd_pointer_raise (read16_low_stop (busRead_hole ⟨hlo, by omega⟩ _))
  · rintro rfl
    have hlow := busRead_plain (a := 0x4020#16) (.inl (by decide)) (s.advance 3)
    exact exec_jmpInd_pointer_raise (read16_high_stop hlow (busRead_hole (by decide) _))

end Sys2Proof.Machine
end

section
/-! ADC (spec/41_alu.md R140): each flag of the status byte it leaves, and the machine it leaves from its immediate byte
and wherever its operand resolves. -/

namespace Sys2Proof.Machine

theorem getFlag_carry_adcStatus (a m p : Byte) :
    getFlag .carry (adcStatus a m p) = adcCarry a m (getFlag .carry p) := by
  simp [adcStatus, setNZ]

theorem getFlag_overflow_adcStatus (a m p : Byte) :
    getFlag .overflow (adcStatus a m p) = adcOverflow a m (getFlag .carry p) := by
  simp [adcStatus, setNZ]

theorem getFlag_zero_adcStatus (a m p : Byte) :
    getFlag .zero (adcStatus a m p) = decide (adcResult a m (getFlag .carry p) = 0#8) :=
  getFlag_zero_setNZ _ _

theorem getFlag_negative_adcStatus (a m p : Byte) :
    getFlag .negative (adcStatus a m p) = decide (128 ≤ (adcResult a m (getFlag .carry p)).toNat) :=
  getFlag_negative_setNZ _ _

theorem getFlag_other_adcStatus {g : Flag} (hc : g ≠ .carry) (hz : g ≠ .zero) (hv : g ≠ .overflow)
    (hn : g ≠ .negative) (a m p : Byte) : getFlag g (adcStatus a m p) = getFlag g p := by
  simp [adcStatus, setNZ, hc, hz, hv, hn]

/-- The one-sided overflow: two inputs below 128 whose result is not (R140, D3). -/
theorem adcOverflow_eq (a m : Byte) (c : Bool) :
    adcOverflow a m c = decide (a.toNat < 128 ∧ m.toNat < 128 ∧ 128 ≤ (adcResult a m c).toNat) := by
  simp [adcOverflow, Config.adcSymmetricOverflow, BitVec.msb_eq_decide, Bool.and_assoc, ← decide_not]

/-- ADC's result and status byte are its whole effect on A and P. -/
theorem adcEffect_of_adcStatus {s t : State} {m : Byte} (ha : t.a = adcResult s.a m (s.flag .carry))
    (hp : t.p = adcStatus s.a m s.p) : AdcEffect s t m := by
  unfold AdcEffect State.flag at *
  rw [ha, hp]
  refine ⟨BitVec.toNat_ofNat _ _, getFlag_carry_adcStatus .., ?_, getFlag_zero_adcStatus ..,
    getFlag_negative_adcStatus .., fun g hg => ?_⟩
  · rw [getFlag_overflow_adcStatus, adcOverflow_eq]
  · have hkept : g ≠ .carry ∧ g ≠ .zero ∧ g ≠ .overflow ∧ g ≠ .negative := by
      revert g
      decide
    obtain ⟨hc, hz, hv, hn⟩ := hkept
    exact getFlag_other_adcStatus hc hz hv hn s.a m s.p

/-- An ADC whose operand resolves completes, the machine it leaves written out. -/
theorem adcForms_resolves {d8 : Byte} {a16 : Addr} {f : Instr × EaMode} (hf : f ∈ adcForms d8 a16)
    {s u : State} {ea : Addr} {m : Byte} (hr : Resolves f.2 s ea m u) :
    exec f.1 s = .next { s with
      a := adcResult s.a m (s.flag .carry), p := adcStatus s.a m s.p, pc := s.pc + BitVec.ofNat 16 f.2.length,
      cyc := s.cyc + Config.stepCycles, gfxLog := u.gfxLog, draws := u.draws } := by
  rw [adcForms_exec hf, withLoad_resolves hr, hr.state]
  rfl

/-- Settles O35: the immediate form by computation. -/
theorem adcImmediateAdds : Obligations.AdcImmediateAdds :=
  fun _ _ => ⟨_, rfl, adcEffect_of_adcStatus rfl rfl, rfl⟩

/-- Settles O36: the other forms by their operand's resolution. -/
theorem adcFromMemoryAdds : Obligations.AdcFromMemoryAdds :=
  fun _ _ _ hf _ _ _ _ hr => ⟨_, adcForms_resolves hf hr, adcEffect_of_adcStatus rfl rfl, rfl⟩

end Sys2Proof.Machine
end

section
/-! STA and STX (spec/42_load_store.md R153, R154): one bus write of the register's byte, by the region of the effective
address. -/

namespace Sys2Proof.Machine

section stores
variable {d8 : Byte} {a16 : Addr} {s u t : State} {f : Instr × EaMode × Byte} {ea : Addr} {m : Byte}

/-- A store whose write completes, the machine it leaves written out. -/
theorem storeForms_next {e : Nat} (hf : f ∈ storeForms d8 a16 s) (hr : Resolves f.2.1 s ea m u)
    (hw : busWrite ea f.2.2 s.cyc u = .ok e t) :
    exec f.1 s = .next { s with
      mem := t.mem, pc := s.pc + BitVec.ofNat 16 f.2.1.length, cyc := s.cyc + Config.stepCycles + e,
      gfxLog := t.gfxLog, draws := t.draws } := by
  rw [storeForms_resolves hf hr, hw, Run.finish, busWrite_ok_registers hw, hr.state]
  rfl

/-- A store whose write raises halts the machine of its start (60_exceptions.md R204). -/
theorem storeForms_raise {e : RuntimeError} (hf : f ∈ storeForms d8 a16 s) (hr : Resolves f.2.1 s ea m u)
    (hw : busWrite ea f.2.2 s.cyc u = .stop (.raise e) t) : exec f.1 s =
      .fault (e.toFault { s with gfxLog := t.gfxLog, draws := t.draws, status := .halted e }) := by
  have hx := hr.external.trans (busWrite_stop hw).1
  rw [storeForms_resolves hf hr, hw, Run.finish, stopped, hx.1]
  rfl

end stores

/-- Settles O40: the write replaces the byte of the effective address's cell. -/
theorem storesToStorage : Obligations.StoresToStorage := by
  intro d8 a16 s hwf f hf u ea m hr hea
  have hwritable := storageAddress_iff.1 hea
  have hmem : u.mem = s.mem := hr.external.mem
  have hsize : u.prgSize = s.prgSize := hr.external.prgSize
  refine ⟨_, storeForms_next hf hr (busWrite_writable hwritable _ _ u), ?_, fun b hb => ?_, rfl⟩
  · simp only [State.setMem_mem, hmem, hsize]
    exact peek_setMem_write_same (State.wf_mem hwf) (Region.stored_of_writable hwritable) rfl
  · simp only [State.setMem_mem, hmem, hsize]
    exact peek_setMem_write (hb ea List.mem_cons_self)

/-- Settles O41: the read of Resolve answers or fails, then the write is accepted or fails. -/
theorem storesToGraphics : Obligations.StoresToGraphics := by
  intro d8 a16 s f hf u ea hea hlo hhi r
  have hx := effectiveAddress_ok_external hea
  refine ⟨fun m hm => ?_, fun hfail => ?_⟩
  · have hr : Resolves f.2.1 s ea m (u.record (.read r (.byte m))) := ⟨u, hea, busRead_graphics_byte ⟨hlo, hhi⟩ hm⟩
    refine ⟨fun hacc => ?_, fun hrej => ?_⟩
    · rw [storeForms_next hf hr (busWrite_graphics_accepted ⟨hlo, hhi⟩ hacc)]
      simp [hx.mem, r]
    · rw [storeForms_raise hf hr (busWrite_graphics_fails ⟨hlo, hhi⟩ hrej)]
      simp [RuntimeError.toFault, r]
  · obtain ⟨g, -, -, hexec⟩ := storeForms_exec hf
    rw [hexec]
    exact withOperand_operand_raise hea (busRead_graphics_fails ⟨hlo, hhi⟩ hfail) _

/-- Settles O42: the write is the bulk transfer, which begins with the 256 reads. -/
theorem storesToTheBulkTrigger : Obligations.StoresToTheBulkTrigger := by
  intro d8 a16 s f hf u w m hr
  rw [← wordOf_zero]
  refine ⟨fun bytes hrun => ⟨readRun_length hrun, ?_⟩, fun e hrun => ?_⟩
  · have hw : busWrite 0x4014#16 f.2.2 s.cyc u = .ok (513 + s.cyc % 2) (w.record (.bulkLoad bytes)) := by
      rw [busWrite_port, bulkTransfer, hrun, Run.andThen_ok]
    have hx := hr.external.trans ((ReadsOnly.readRun _ _ u).1 _ _ hrun)
    rw [storeForms_next hf hr hw]
    simp [hx.mem]
  · exact storeForms_raise hf hr (bulkTransfer_stop hrun)

/-- Settles O43: the write is refused. -/
theorem storesToTheImageAreRefused : Obligations.StoresToTheImageAreRefused := by
  intro d8 a16 s f hf u ea m hr hea
  rw [storeForms_resolves hf hr, busWrite_image hea]
  rfl

/-- Settles O54: a store that completes made one bus write, at the address its mode computes. -/
theorem storesChangeOneByte : Obligations.StoresChangeOneByte := by
  intro d8 a16 s t f hf h
  obtain ⟨g, -, -, hexec⟩ := storeForms_exec hf
  rw [hexec] at h
  obtain ⟨ea, m, u, v, e, hr, hw, rfl⟩ := withStore_next g (fun _ _ _ => rfl) h
  have hx := hr.external
  refine ⟨fun ea' u' hea' => ?_, ?_⟩
  · obtain ⟨u1, hea, -⟩ := hr
    obtain ⟨rfl, -⟩ : ea = ea' ∧ u1 = u' := by simpa [hea] using hea'
    rw [storageAddress_iff]
    rcases busWrite_ok hw with ⟨hwritable, -, rfl⟩ | ⟨hnot, -, hy⟩
    · refine ⟨fun b hb => ?_, fun hnot => absurd hwritable hnot⟩
      have hcell : cellOf u.prgSize b ≠ cellOf u.prgSize ea := hx.prgSize ▸ hb ea List.mem_cons_self
      exact (peek_setMem_write hcell).trans (hx.peek b)
    · have hsame : SameMemory s (v.setCyc (s.cyc + Config.stepCycles + e)) := (hx.trans hy).peek
      exact ⟨fun b _ => hsame b, fun _ => hsame⟩
  · rw [busWrite_ok_registers hw]
    exact ⟨hx.a, hx.x, hx.y, hx.sp, hx.p, hx.prgSize⟩

end Sys2Proof.Machine
end

section
/-! JMP, JSR and the branches (spec/43_jumps_subroutines.md R160 to R163, 46_branches.md R190 to R197), and the return
from a break (44_break_return.md R172). -/

namespace Sys2Proof.Machine

/-! ### JMP and the branches -/

/-- Settles O44: the handler sets the pc alone. -/
theorem jmpGoesToItsTarget : Obligations.JmpGoesToItsTarget := by
  intro a16 f hf s u ea m hr
  rw [jmpForms_exec hf, withOperand_resolves hr, jump, hr.state]
  rfl

/-- The target of a branch: the signed byte from the next instruction on (R190). -/
theorem Resolves.relative_target {d8 : Byte} {s u : State} {ea : Addr} {m : Byte}
    (hr : Resolves (.relative d8) s ea m u) : ea = BitVec.ofInt 16 (s.pc.toNat + 2 + d8.toInt) := by
  obtain ⟨u1, hea, -⟩ := hr
  cases hea
  rw [BitVec.ofInt_add, State.advance_pc, ← ofNat_toNat_add, ← BitVec.ofInt_natCast]
  rfl

/-- `if cond: pc <- ea` (R190): only the pc can change. -/
theorem branchIf_eq (f : Flag) (wanted : Bool) (ea : Addr) (m : Byte) (s : State) :
    branchIf f wanted ea m s = .ok 0 (s.setPc (if getFlag f s.p = wanted then ea else s.pc)) := by
  rw [branchIf, quiet]
  split <;> rfl

/-- Settles O52: the target of each, and the pc its flag selects. -/
theorem branchesFollowTheirFlag : Obligations.BranchesFollowTheirFlag := by
  intro d8 f hf s u ea m hr
  refine ⟨hr.relative_target, ?_⟩
  rw [branchForms_exec hf, withOperand_resolves hr, branchIf_eq, hr.state]
  rfl

/-! ### JSR -/

/-- `Push16(pc); pc <- ea` (R161): it always completes, with no extra cycle. -/
theorem call_eq (ea : Addr) (m : Byte) (s : State) :
    call ea m s = .ok 0 (((s.setMem (pushed16 s.mem s.sp s.pc)).setSp (s.sp - 2#8)).setPc ea) := by
  rw [call, push16_eq, Run.andThen_ok]

/-- A JSR whose target can be read completes, the machine it leaves written out. -/
theorem exec_jsr {a16 ea : Addr} {s u : State} {m : Byte} (hr : Resolves (.absolute a16) s ea m u) :
    exec (.jsr a16) s = .next { s with
      mem := pushed16 s.mem s.sp (s.pc + 3#16), sp := s.sp - 2#8, pc := ea, cyc := s.cyc + Config.stepCycles,
      gfxLog := u.gfxLog, draws := u.draws } := by
  change withOperand (.absolute a16) call s = _
  rw [withOperand_resolves hr, call_eq, hr.state]
  rfl

/-- Everything a JSR that completes can do: it has read the byte at its target. -/
theorem exec_jsr_next {a16 : Addr} {s t : State} (h : exec (.jsr a16) s = .next t) :
    ∃ (ea : Addr) (u : State), t = { s with
      mem := pushed16 s.mem s.sp (s.pc + 3#16), sp := s.sp - 2#8, pc := ea, cyc := s.cyc + Config.stepCycles,
      gfxLog := u.gfxLog, draws := u.draws } := by
  obtain ⟨ea, m, u, hr, -⟩ := withOperand_next (o := .absolute a16) (f := call) h
  rw [exec_jsr hr] at h
  cases h
  exact ⟨ea, u, rfl⟩

/-- A machine that holds the memory of a Push16 differs from the one before it in two stack cells only. -/
theorem sameMemoryOutside_pushed16 {s t : State} {w : Addr} (hm : t.mem = pushed16 s.mem s.sp w)
    (hz : t.prgSize = s.prgSize) : SameMemoryOutside [slot s.sp, slot (s.sp - 1#8)] s t := by
  intro b hb
  simp only [List.forall_mem_cons, cellOf_slot] at hb
  obtain ⟨hlow, hhigh, -⟩ := hb
  refine State.peek_eq_of_cell hz ?_
  rw [hm, read_pushed16_other _ _ hlow hhigh]

/-- Settles O45: the two slots of the memory of a Push16, and its frame. -/
theorem jsrPushesTheNextAddress : Obligations.JsrPushesTheNextAddress := by
  intro a16 s u m hwf hr
  have hm := State.wf_mem hwf
  refine ⟨_, exec_jsr hr, ?_, ?_, sameMemoryOutside_pushed16 rfl rfl, rfl⟩
  · rw [peek_slot, read_pushed16_low hm]
  · rw [peek_slot, read_pushed16_high hm]

/-- Settles O55: the memory each leaves, and its frame. -/
theorem stackInstructionsChangeTheirSlots : Obligations.StackInstructionsChangeTheirSlots := by
  refine fun a16 s t => ⟨fun h => ?_, fun h => ?_⟩
  · obtain ⟨ea, u, rfl⟩ := exec_jsr_next h
    exact ⟨sameMemoryOutside_pushed16 rfl rfl, rfl, rfl, rfl, rfl, rfl⟩
  · rw [exec_brk] at h
    cases h
    exact ⟨sameMemoryOutside_breakPushed rfl rfl, rfl, rfl, rfl, rfl⟩

/-! ### Returning -/

/-- What a machine reads in a stack slot that holds what another machine's memory does. -/
theorem peek_slot_of_eq {v t : State} {sp : Byte} {b : Byte} (h : v.peek (slot sp) = t.peek (slot sp))
    (hb : t.mem.read (0x0100 + sp.toNat) = b) : v.peek (slot sp) = some b := by
  rw [h, peek_slot, hb]

/-- Settles O49: the popped word is the pushed one. -/
theorem rtsReturnsAfterItsJsr : Obligations.RtsReturnsAfterItsJsr := by
  intro a16 s t v hwf h hsp hhi hlo
  obtain ⟨ea, u, rfl⟩ := exec_jsr_next h
  have hm := State.wf_mem hwf
  have hhigh : v.peek (slot (v.sp + 1#8)) = some (hi8 (s.pc + 3#16)) := by
    rw [hsp]
    refine peek_slot_of_eq hhi ?_
    rw [show s.sp - 2#8 + 1#8 = s.sp - 1#8 by bv_omega, read_pushed16_high hm]
  have hlow : v.peek (slot (v.sp + 2#8)) = some (lo8 (s.pc + 3#16)) := by
    rw [hsp]
    refine peek_slot_of_eq hlo ?_
    rw [BitVec.sub_add_cancel, read_pushed16_low hm]
  refine ⟨_, rtsTakesThePoppedAddress v _ _ hhigh hlow, wordOf_hi8_lo8 _, ?_⟩
  rw [hsp]
  exact BitVec.sub_add_cancel s.sp 2#8

/-- Break and Unused, set in the copy BRK pushes; RTI clears Break (R170 to R172). -/
theorem popped_pushed_status (p : Byte) : (p ||| 0x30#8) &&& 0xEF#8 = (p ||| 0x20#8) &&& 0xEF#8 := by
  revert p
  decide

/-- Settles O50: the three popped bytes are the pushed ones, slot by slot. -/
theorem rtiReturnsAfterItsBrk : Obligations.RtiReturnsAfterItsBrk := by
  intro s t v hwf h hsp hslots
  rw [exec_brk] at h
  cases h
  have hm := State.wf_mem hwf
  have hstatus : v.peek (slot (v.sp + 1#8)) = some (s.p ||| 0x30#8) := by
    rw [hsp]
    refine peek_slot_of_eq (hslots 1#8 (by simp)) ?_
    rw [show s.sp - 3#8 + 1#8 = s.sp - 2#8 by bv_omega, read_breakPushed_status hm]
  have hhigh : v.peek (slot (v.sp + 2#8)) = some (hi8 (s.pc + 1#16)) := by
    rw [hsp]
    refine peek_slot_of_eq (hslots 2#8 (by simp)) ?_
    rw [show s.sp - 3#8 + 2#8 = s.sp - 1#8 by bv_omega, read_breakPushed_high hm]
  have hlow : v.peek (slot (v.sp + 3#8)) = some (lo8 (s.pc + 1#16)) := by
    rw [hsp]
    refine peek_slot_of_eq (hslots 3#8 (by simp)) ?_
    rw [BitVec.sub_add_cancel, read_breakPushed_low hm]
  refine ⟨_, rtiRestoresStatusAndPc v _ _ _ hstatus hhigh hlow, wordOf_hi8_lo8 _, ?_, popped_pushed_status s.p⟩
  rw [hsp]
  exact BitVec.sub_add_cancel s.sp 3#8

end Sys2Proof.Machine
end

section
/-! Which mnemonic writes what (spec/10_state.md R20 to R46, and the instruction's own rules): the effect of each handler
on the machine whose operand has been read, said once, and the flags, the registers and the memory it leaves alone. -/

namespace Sys2Proof.Machine

/-- What the handler of a mnemonic can do to the machine `u` once the operand has been read, with the machine `v` after
it: the fields it may write, and the value where a later proof needs it. -/
def HandlerEffect (n : Mnemonic) (u v : State) : Prop :=
  match n with
  | .adc => ∃ m, v = addWithCarry m u
  | .bit => ∃ m, v = bitTest m u
  | .lda => ∃ m, v = loadA m u
  | .ldx => ∃ m, v = loadX m u
  | .sta | .stx => v = { u with mem := v.mem, gfxLog := v.gfxLog, draws := v.draws }
  | .jsr => v = { u with mem := v.mem, sp := v.sp, pc := v.pc }
  | .rts => v = { u with sp := v.sp, pc := v.pc }
  | .brk => v = { u with mem := v.mem, sp := v.sp, pc := v.pc, p := setFlag .interruptDisable true u.p }
  | .rti => v = { u with p := v.p, sp := v.sp, pc := v.pc } ∧ getFlag .brk v.p = false
  | .sec => v = u.setFlag .carry true
  | .clc => v = u.setFlag .carry false
  | .nop => v = u
  | .jmp | .bcs | .bcc | .beq | .bne | .bvs | .bvc | .bpl => v = { u with pc := v.pc }

/-- A body of an instruction that reads its operand, then has the effect of a mnemonic's handler. -/
def ReadsThen (n : Mnemonic) (body : State → Run Nat) : Prop :=
  ∀ s e v, body s = .ok e v → ∃ u, OnlyExternal s u ∧ HandlerEffect n u v

/-- A handler has the effect of its mnemonic wherever it completes. -/
def Handles (n : Mnemonic) (handler : State → Run Nat) : Prop :=
  ∀ u e v, handler u = .ok e v → HandlerEffect n u v

theorem Handles.of_eq {n : Mnemonic} {handler : State → Run Nat} {g : State → State}
    (hh : ∀ s, handler s = .ok 0 (g s)) (hg : ∀ s, HandlerEffect n s (g s)) : Handles n handler := by
  intro u e v h
  rw [hh] at h
  cases h
  exact hg u

/-- An instruction without an operand read. -/
theorem ReadsThen.handler {n : Mnemonic} {handler : State → Run Nat} (h : Handles n handler) :
    ReadsThen n handler := fun s e v hv => ⟨s, .refl s, h s e v hv⟩

/-- An instruction with an effective address. -/
theorem ReadsThen.operandBody {n : Mnemonic} {o : EaMode} {handler : Addr → Byte → State → Run Nat}
    (h : ∀ ea m, Handles n (handler ea m)) :
    ReadsThen n (fun s => (effectiveAddress o s).andThen fun ea s => (busRead ea s).andThen fun m s =>
      handler ea m s) := by
  intro s e v hv
  obtain ⟨ea, s1, hea, hrest⟩ := Run.andThen_eq_ok.1 hv
  obtain ⟨m, u, hm, hhandler⟩ := Run.andThen_eq_ok.1 hrest
  exact ⟨u, (effectiveAddress_ok_external hea).trans (busRead_ok_external hm), h ea m u e v hhandler⟩

theorem Handles.leaveBreak : Handles .rti Machine.leaveBreak := by
  have hclear : ∀ b : Byte, getFlag .brk (poppedStatus b) = false := by decide
  exact Handles.of_eq leaveBreak_eq fun _ => ⟨rfl, hclear _⟩

/-- Every instruction reads its operand, then has the effect of its mnemonic's handler. -/
theorem exec_readsThen (i : Instr) :
    ∃ body, ReadsThen i.mnemonic body ∧ ∀ s, exec i s = instruction i.length body s := by
  have hAdc : ∀ m, Handles .adc (quiet (addWithCarry m)) := fun m => Handles.of_eq (fun _ => rfl) fun _ => ⟨m, rfl⟩
  have hBit : ∀ m, Handles .bit (quiet (bitTest m)) := fun m => Handles.of_eq (fun _ => rfl) fun _ => ⟨m, rfl⟩
  have hLda : ∀ m, Handles .lda (quiet (loadA m)) := fun m => Handles.of_eq (fun _ => rfl) fun _ => ⟨m, rfl⟩
  have hLdx : ∀ m, Handles .ldx (quiet (loadX m)) := fun m => Handles.of_eq (fun _ => rfl) fun _ => ⟨m, rfl⟩
  have hSta : ∀ ea m, Handles .sta (storeA ea m) := fun _ _ _ _ _ => busWrite_ok_registers
  have hStx : ∀ ea m, Handles .stx (storeX ea m) := fun _ _ _ _ _ => busWrite_ok_registers
  have hJmp : ∀ ea m, Handles .jmp (jump ea m) := fun _ _ => Handles.of_eq (fun _ => rfl) fun _ => rfl
  have hJsr : ∀ ea m, Handles .jsr (call ea m) := fun ea m => Handles.of_eq (call_eq ea m) fun _ => rfl
  have hBranch : ∀ {n f w}, (∀ u v, HandlerEffect n u v = (v = { u with pc := v.pc })) → ∀ ea m,
      Handles n (branchIf f w ea m) := fun hn ea m =>
    Handles.of_eq (branchIf_eq _ _ ea m) fun _ => (hn _ _).symm ▸ rfl
  cases i with
  | adcImm d => exact ⟨_, .handler (hAdc d), fun _ => rfl⟩
  | ldaImm d => exact ⟨_, .handler (hLda d), fun _ => rfl⟩
  | ldxImm d => exact ⟨_, .handler (hLdx d), fun _ => rfl⟩
  | adcZp d | adcZpX d | adcAbs d | adcAbsX d | adcAbsY d | adcIndX d | adcIndY d =>
    exact ⟨_, .operandBody fun _ => hAdc, fun _ => rfl⟩
  | bitZp d | bitAbs d => exact ⟨_, .operandBody fun _ => hBit, fun _ => rfl⟩
  | ldaZp d | ldaZpX d | ldaAbs d | ldaAbsX d | ldaAbsY d | ldaIndX d | ldaIndY d =>
    exact ⟨_, .operandBody fun _ => hLda, fun _ => rfl⟩
  | ldxZp d | ldxZpY d | ldxAbs d | ldxAbsY d => exact ⟨_, .operandBody fun _ => hLdx, fun _ => rfl⟩
  | staZp d | staZpX d | staAbs d | staAbsX d | staAbsY d | staIndX d | staIndY d =>
    exact ⟨_, .operandBody hSta, fun _ => rfl⟩
  | stxZp d | stxZpY d | stxAbs d => exact ⟨_, .operandBody hStx, fun _ => rfl⟩
  | jmpAbs d | jmpInd d => exact ⟨_, .operandBody hJmp, fun _ => rfl⟩
  | jsr d => exact ⟨_, .operandBody hJsr, fun _ => rfl⟩
  | bcs d | bcc d | beq d | bne d | bvs d | bvc d | bpl d =>
    exact ⟨_, .operandBody (hBranch fun _ _ => rfl), fun _ => rfl⟩
  | rts => exact ⟨_, .handler (Handles.of_eq returnFromCall_eq fun _ => rfl), fun _ => rfl⟩
  | brk => exact ⟨_, .handler (Handles.of_eq enterBreak_eq fun _ => rfl), fun _ => rfl⟩
  | rti => exact ⟨_, .handler Handles.leaveBreak, fun _ => rfl⟩
  | sec | clc | nop => exact ⟨_, .handler (Handles.of_eq (fun _ => rfl) fun _ => rfl), fun _ => rfl⟩

/-- An instruction that completes: its operand read changed nothing of the core, its handler had the mnemonic's effect,
and the cycle count went on. -/
theorem exec_effect {i : Instr} {s t : State} (h : exec i s = .next t) :
    ∃ u v c, OnlyExternal (s.advance i.length) u ∧ HandlerEffect i.mnemonic u v ∧ t = v.setCyc c := by
  obtain ⟨body, hbody, hexec⟩ := exec_readsThen i
  rw [hexec, instruction] at h
  cases hrun : body (s.advance i.length) with
  | ok e v =>
    rw [hrun] at h
    cases h
    obtain ⟨u, hx, he⟩ := hbody _ _ _ hrun
    exact ⟨u, v, _, hx, he, rfl⟩
  | stop why v =>
    rw [hrun] at h
    cases why <;> cases h

/-! ### Flags -/

/-- Settles O17: the status byte each handler leaves. -/
theorem flagsWrittenOnlyByTheirWriters : Obligations.FlagsWrittenOnlyByTheirWriters := by
  intro i s t h
  obtain ⟨u, v, c, hx, he, rfl⟩ := exec_effect h
  have hp : s.p = u.p := hx.p.symm
  simp only [State.flag, State.setCyc_p, hp]
  generalize i.mnemonic = n at he ⊢
  cases n with
  | adc => obtain ⟨m, rfl⟩ := he; simp [addWithCarry, adcStatus, setNZ]
  | bit => obtain ⟨m, rfl⟩ := he; simp [bitTest, bitStatus]
  | lda => obtain ⟨m, rfl⟩ := he; simp [loadA, setNZ]
  | ldx => obtain ⟨m, rfl⟩ := he; simp [loadX, setNZ]
  | rti => simp
  | sta | stx | jsr | rts | brk | sec | clc | nop | jmp | bcs | bcc | beq | bne | bvs | bvc | bpl => rw [he]; simp

/-- Settles O15: RTI clears Break, and no other mnemonic writes it. -/
theorem breakFlagStaysClear : Obligations.BreakFlagStaysClear := by
  intro s t hclear h
  obtain ⟨-, i, s1, -, hx, hi⟩ := step_next h
  by_cases hrti : i.mnemonic = .rti
  · obtain ⟨u, v, c, -, he, rfl⟩ := exec_effect hi
    rw [hrti] at he
    exact he.2
  · obtain ⟨-, -, -, hkept, -⟩ := flagsWrittenOnlyByTheirWriters i s1 t hi
    obtain ⟨-, hbrk, -⟩ := hkept hrti
    rw [hbrk, State.flag, hx.p]
    exact hclear

/-! ### Registers and memory -/

/-- Settles O18: the registers each handler leaves alone. -/
theorem registersWrittenOnlyByTheirWriters : Obligations.RegistersWrittenOnlyByTheirWriters := by
  intro i s t h
  obtain ⟨u, v, c, hx, he, rfl⟩ := exec_effect h
  have ha : u.a = s.a := hx.a
  have hxr : u.x = s.x := hx.x
  have hy : u.y = s.y := hx.y
  have hsp : u.sp = s.sp := hx.sp
  have hpc : u.pc = s.pc + BitVec.ofNat 16 i.length := hx.pc
  simp only [State.setCyc_a, State.setCyc_x, State.setCyc_y, State.setCyc_sp, State.setCyc_pc, ← ha, ← hxr, ← hy,
    ← hsp, ← hpc]
  generalize i.mnemonic = n at he ⊢
  cases n with
  | adc => obtain ⟨m, rfl⟩ := he; simp [addWithCarry]
  | bit => obtain ⟨m, rfl⟩ := he; simp [bitTest]
  | lda => obtain ⟨m, rfl⟩ := he; simp [loadA]
  | ldx => obtain ⟨m, rfl⟩ := he; simp [loadX]
  | rti => rw [he.1]; simp
  | sta | stx | jsr | rts | brk | sec | clc | nop | jmp | bcs | bcc | beq | bne | bvs | bvc | bpl => rw [he]; simp

/-- The handlers of every mnemonic but four leave the memory and the image size alone. -/
theorem HandlerEffect.mem {n : Mnemonic} {u v : State} (h : HandlerEffect n u v)
    (hn : n ∉ [Mnemonic.sta, .stx, .jsr, .brk]) : v.mem = u.mem ∧ v.prgSize = u.prgSize := by
  cases n with
  | sta | stx | jsr | brk => simp at hn
  | adc | bit | lda | ldx => obtain ⟨m, rfl⟩ := h; exact ⟨rfl, rfl⟩
  | rti => rw [h.1]; exact ⟨rfl, rfl⟩
  | rts | sec | clc | nop | jmp | bcs | bcc | beq | bne | bvs | bvc | bpl => rw [h]; exact ⟨rfl, rfl⟩

/-- Settles O53: what an address reads depends on the memory and the image size alone. -/
theorem otherInstructionsStoreNothing : Obligations.OtherInstructionsStoreNothing := by
  intro i s t h hn
  obtain ⟨u, v, c, hx, he, rfl⟩ := exec_effect h
  obtain ⟨hmem, hsize⟩ := he.mem hn
  exact ⟨State.peek_congr (hmem.trans hx.mem) (hsize.trans hx.prgSize), hsize.trans hx.prgSize⟩

end Sys2Proof.Machine
end

section
/-! Reset and the loader (spec/70_reset_and_hazards.md R230 to R237): the two images the loader cuts out, and the machine
a Reset over an admitted image leaves. -/

namespace Sys2Proof.Machine

/-- Settles O13: each value by computation. -/
theorem resetMachine : Obligations.ResetMachine :=
  ⟨rfl, rfl, rfl, rfl, rfl, rfl, rfl, rfl, rfl, rfl⟩

/-! ### The loader -/

section loader
variable {file : List Byte}

theorem loadCartridge_short (hlen : file.length < 16) :
    loadCartridge file = .error .emptyFile ∨ loadCartridge file = .error .invalidHeader := by
  rw [loadCartridge, if_pos hlen]
  cases Config.shortFileIsEmpty file.length
  · exact .inr rfl
  · exact .inl rfl

theorem loadCartridge_unsigned (hlen : 16 ≤ file.length) (hmagic : file.take 4 ≠ magic) :
    loadCartridge file = .error .invalidHeader := by
  rw [loadCartridge, if_neg (Nat.not_lt.2 hlen), if_pos hmagic]

section signed
variable (hlen : 16 ≤ file.length) (hmagic : file.take 4 = magic)
include hlen hmagic

theorem loadCartridge_trainer (htrainer : hasTrainer file = true)
    (hlong : 16 + prgLength file + chrLength file ≤ file.length) :
    loadCartridge file = .error .unsupportedFeature := by
  simp [loadCartridge, Nat.not_lt.2 hlen, hmagic, htrainer, Nat.not_lt.2 hlong]

theorem loadCartridge_truncated (htrainer : hasTrainer file = false)
    (hshort : file.length < 16 + prgLength file + chrLength file) :
    loadCartridge file = .error .truncatedFile := by
  simp [loadCartridge, Nat.not_lt.2 hlen, hmagic, htrainer, hshort]

theorem loadCartridge_ok (htrainer : hasTrainer file = false)
    (hlong : 16 + prgLength file + chrLength file ≤ file.length) :
    loadCartridge file = .ok
      { prg := (file.drop 16).take (prgLength file)
        chr := (file.drop (16 + prgLength file)).take (chrLength file) } := by
  simp [loadCartridge, Nat.not_lt.2 hlen, hmagic, htrainer, Nat.not_lt.2 hlong]

end signed

theorem getElem?_cut {n m k : Nat} (hk : k < m) : ((file.drop n).take m)[k]? = file[n + k]? := by
  rw [List.getElem?_take_of_lt hk, List.getElem?_drop]

theorem length_cut {n m : Nat} (h : n + m ≤ file.length) : ((file.drop n).take m).length = m := by
  rw [List.length_take, List.length_drop]
  omega

end loader

/-- Settles O58: the checks of the loader in their order, then the two cuts. -/
theorem loaderCutsOutTheImages : Obligations.LoaderCutsOutTheImages := by
  intro file prg chr
  refine ⟨loadCartridge_short, loadCartridge_unsigned, fun hlen hmagic => ?_⟩
  refine ⟨loadCartridge_trainer hlen hmagic, loadCartridge_truncated hlen hmagic, fun htrainer hlong => ?_⟩
  exact ⟨_, loadCartridge_ok hlen hmagic htrainer hlong, length_cut (Nat.le_of_add_right_le hlong), length_cut hlong,
    fun k hk => getElem?_cut hk, fun k hk => getElem?_cut hk⟩

/-! ### Reset -/

/-- An admitted length is that of one of the two image sizes (20_memory.md R64). -/
theorem prgSizeOf_admitted {n : Nat} (h : n = 0x4000 ∨ n = 0x8000) : ∃ z, prgSizeOf n = some z ∧ z.bytes = n := by
  rcases h with rfl | rfl
  · exact ⟨.half, rfl, rfl⟩
  · exact ⟨.full, rfl, rfl⟩

theorem prgSizeOf_other {n : Nat} (hhalf : n ≠ 0x4000) (hfull : n ≠ 0x8000) : prgSizeOf n = none := by
  rw [prgSizeOf, if_neg hhalf, if_neg hfull]

/-- Settles O57: the two ways a Reset ends before the machine is set. -/
theorem resetWithoutAnImageYieldsNoMachine : Obligations.ResetWithoutAnImageYieldsNoMachine := by
  intro file r contents before
  constructor
  · intro e h
    simp only [hostReset, h]
  · intro cart h hhalf hfull
    simp only [hostReset, h, prgSizeOf_other hhalf hfull]

theorem hostReset_ready {file : List Byte} {r : ResetParams} {cart : Cartridge} {z : PrgSize}
    (hload : loadCartridge file = .ok cart) (hsize : prgSizeOf cart.prg.length = some z) (hcyc : r.cyc ≠ 0)
    (contents : Nat → Byte) (before : State) :
    hostReset file r contents before = .ready (bootState cart.prg z r contents before) := by
  simp only [hostReset, hload, hsize, if_neg hcyc]

/-- A storage address reaches a cell whose contents a Reset leaves arbitrary. -/
theorem cellOf_mem_volatileCells (z : PrgSize) {a : Addr} (h : StorageAddress a) : cellOf z a ∈ volatileCells := by
  rw [mem_volatileCells]
  rcases Nat.lt_or_ge a.toNat 0x2000 with hram | hnot
  · rw [cellOf_ram z hram]
    exact .inl (Nat.mod_lt _ (by decide))
  · rw [cellOf_self z hnot (by omega)]
    exact h.imp_left fun hram => absurd hram (Nat.not_lt.2 hnot)

section boot
variable {prg : List Byte} {z : PrgSize} (r : ResetParams) (f : Nat → Byte) (before : State)

/-- RAM, IO and CRAM hold whatever they hold. -/
theorem bootState_peek_volatile {a : Addr} (h : StorageAddress a) :
    (bootState prg z r f before).peek a = some (f (cellOf z a)) := by
  rw [State.peek_stored (Region.stored_of_writable (storageAddress_iff.1 h)), bootState_mem, bootState_prgSize,
    launchMemory_volatile _ _ (cellOf_mem_volatileCells z h)]

/-- The image stands in its window (20_memory.md R64). -/
theorem bootState_peek_image (hz : z.bytes = prg.length) {a : Addr} (h : 0x8000 ≤ a.toNat) :
    (bootState prg z r f before).peek a = prg[(a.toNat - 0x8000) % prg.length]? := by
  have hlt : (a.toNat - 0x8000) % prg.length < prg.length := Nat.mod_lt _ (hz ▸ z.bytes_pos)
  rw [State.peek_stored (stored_image h), bootState_mem, bootState_prgSize, cellOf_prgRom z h, launchMemory_image,
    hz, List.getElem?_eq_getElem hlt, List.getD_eq_getElem _ _ hlt]

/-- The reset vector is the fourth and third byte from the end of the image. -/
theorem bootState_vector (hz : z.bytes = prg.length) :
    (bootState prg z r f before).vectorAt resetVector =
      wordOf (prg.getD (prg.length - 3) 0#8) (prg.getD (prg.length - 4) 0#8) := by
  have hmod : 0x7FFC % prg.length = prg.length - 4 ∧ 0x7FFD % prg.length = prg.length - 3 := by
    rw [← hz]
    cases z <;> decide
  rw [State.vectorAt, bootState_peek_image r f before hz (by decide), bootState_peek_image r f before hz (by decide),
    List.getD_eq_getElem?_getD, List.getD_eq_getElem?_getD, ← hmod.1, ← hmod.2]
  rfl

end boot

/-- Settles O56: the machine of `bootState`, field by field. -/
theorem resetSetsTheMachine : Obligations.ResetSetsTheMachine := by
  intro file r contents before cart hload hlen hcyc
  obtain ⟨z, hsize, hz⟩ := prgSizeOf_admitted hlen
  refine ⟨_, hostReset_ready hload hsize hcyc contents before, rfl, rfl, rfl, rfl, rfl, rfl, rfl, rfl,
    bootState_wf _ _ _ _ _ hz, hz, fun a ha => bootState_peek_volatile r contents before ha,
    fun a ha => bootState_peek_image r contents before hz ha, ?_⟩
  rw [bootState_pc, bootState_vector r contents before hz]

end Sys2Proof.Machine
end
